-- ==== Sys2Proof/Word.lean ====
section
/-! DEFINITION. The two word types of the spec (00_scope.md R8): `u8` and `u16`. -/

namespace Sys2Proof

/-- `u8` (R8): an 8-bit register, an operand byte or a memory byte. -/
abbrev Byte := BitVec 8

/-- `u16` (R8): PC, SP, a register pair, an address, the clock. -/
abbrev Word := BitVec 16

end Sys2Proof
end

