-- ==== Sys2Proof/Config.lean ====
section
/-! DEFINITION. The implementation parameters of 00_scope.md R7: fixed for a machine, never read or written by
an instruction (10_state.md R26, R28). The hardware's values stand in Machine/Params.lean. -/

namespace Sys2Proof

/-- `OVERFLOW_POLICY` (R7, R10): what PC, SP and address arithmetic does outside 0x0000..0xFFFF. -/
inductive OverflowPolicy where
  | wrap
  | fault
  deriving DecidableEq, Repr

/-- `CP_UNFIRED` (R7, 42_alu_flags.md R92): what compare does to the flags its chain did not fire on. -/
inductive CpUnfired where
  | preserve
  | clear
  deriving DecidableEq, Repr

/-- The parameters a step depends on (R7). `INIT_MEM` is no part of it: it is an argument of the launch (R46). -/
structure Config where
  /-- `OVERFLOW_POLICY` -/
  overflowPolicy : OverflowPolicy
  /-- `CP_UNFIRED` -/
  cpUnfired : CpUnfired
  /-- `MEM_VALID(addr)` (20_memory.md R36) -/
  memValid : Word → Bool
  /-- `BASE_COST(op)` -/
  baseCost : Byte → Word
  /-- `OVERRIDE(op, taken)`; 0 means none -/
  override : Byte → Bool → Word

/-- `BASE_COST`, OPEN (R7, 70_reset_and_hazards.md R137): uninterpreted, so every claim holds for every value (log 4). -/
opaque Config.openBaseCost : Byte → Word

/-- `OVERRIDE`, OPEN (R7, 40_execute_loop.md R70): uninterpreted, so every claim holds for every value (log 5). -/
opaque Config.openOverride : Byte → Bool → Word

end Sys2Proof
end

