-- ==== Sys2Proof/Machine/Flags.lean ====
section
/-! DEFINITION. The flag algebra of 42_alu_flags.md (R79 to R92) on the flag byte and operands alone, and the flag
positions of 10_state.md R20. -/

namespace Sys2Proof.Machine

/-- The four flags (10_state.md R19). -/
inductive Flag where
  | zero
  | negative
  | halfCarry
  | carry
  deriving DecidableEq, Repr

/-- `FLAG_POS` (R20; log 9). -/
def Flag.pos : Flag → Nat
  | .zero => 7
  | .negative => 6
  | .halfCarry => 5
  | .carry => 4

/-- The byte with only this flag's bit set. -/
def Flag.mask (x : Flag) : Byte := 1#8 <<< x.pos

/-- The value of a flag in a flag byte. -/
def getFlag (x : Flag) (f : Byte) : Bool := f.getLsbD x.pos

/-- `setflag(x, v)` (R79): set the bit if true, clear it if false, touch no other bit. -/
def setFlag (x : Flag) (v : Bool) (f : Byte) : Byte :=
  if v then f ||| x.mask else f &&& ~~~x.mask

/-- `byte(pattern)` (43_control_stack.md R102): the flag byte with exactly these flags set. -/
def flagByte (pattern : List Flag) : Byte := pattern.foldl (fun f x => f ||| x.mask) 0x00

/-- The low nibble of a byte, as a number. -/
def lowNibble (v : Byte) : Nat := (v &&& 0x0F).toNat

/-- The low nibble of a word, as a number. -/
def lowNibbleW (v : Word) : Nat := (v &&& 0x000F).toNat

/-- The result of `add16(dst, addend)` (R82): the sum, truncated to 16 bits. -/
def add16Result (dst addend : Word) : Word := BitVec.ofNat 16 (dst.toNat + addend.toNat)

/-- The flags of `add16(dst, addend)` (R82): CARRY from the exact sum, HALFCARRY from the truncated result and the
addend, NEGATIVE clear, ZERO untouched. -/
def add16Flags (dst addend : Word) (f : Byte) : Byte :=
  let f := setFlag .carry (decide (dst.toNat + addend.toNat > 0xFFFF)) f
  let f := setFlag .halfCarry (decide (lowNibbleW (add16Result dst addend) + lowNibbleW addend > 0xF)) f
  setFlag .negative false f

/-- The flags of `sbc(x)` (R84), `a` the accumulator: four independent tests; the incoming CARRY is not read. -/
def sbcFlags (a x f : Byte) : Byte :=
  let f := setFlag .negative true f
  let f := setFlag .zero (decide (x = a)) f
  let f := setFlag .carry (decide (x.toNat > a.toNat)) f
  setFlag .halfCarry (decide (lowNibble x > lowNibble a)) f

/-- The flags of `xor(x)` (R88) with this result: all cleared, then ZERO set only if the result is zero. -/
def xorFlags (result : Byte) : Byte := setFlag .zero (decide (result = 0)) 0x00

/-- The chain of `cp(x)` (R92): at most one flag set, none cleared. -/
def cpChain (a x f : Byte) : Byte :=
  if x = a then setFlag .zero true f
  else if a.toNat < x.toNat then setFlag .carry true f
  else if lowNibble x > lowNibble a then setFlag .halfCarry true f
  else f

/-- The flags of `cp(x)` (R92), `a` the accumulator: under `Clear` the three chain flags start from 0. -/
def cpFlags (unfired : CpUnfired) (a x f : Byte) : Byte :=
  let f :=
    match unfired with
    | .preserve => f
    | .clear => setFlag .halfCarry false (setFlag .carry false (setFlag .zero false f))
  setFlag .negative true (cpChain a x f)

end Sys2Proof.Machine
end

