-- ==== Sys2Proof/Syntax.lean ====
section
/-! DEFINITION. The instruction set: one constructor for each mnemonic of spec/opcode_table.json
(30_encoding.md R55, R56), the UNIMPLEMENTED rows (R57) as one constructor that carries the opcode byte. -/

namespace Sys2Proof

/-- A decoded instruction with its operand (00_scope.md R12): `d8`, `e8` a byte, `a16` a word. -/
inductive Instr where
  /-- `NOP` (0x00, R77) -/
  | nop
  /-- `ADD HL,BC` (0x09, R83) -/
  | addHLBC
  /-- `ADD HL,DE` (0x19, R83) -/
  | addHLDE
  /-- `ADD HL,HL` (0x29, R83) -/
  | addHLHL
  /-- `ADD HL,SP` (0x39, R83) -/
  | addHLSP
  /-- `JR Z,e8` (0x28, R103) -/
  | jrZ (e8 : Byte)
  /-- `JR C,e8` (0x38, R104) -/
  | jrC (e8 : Byte)
  /-- `LD A,d8` (0x3E, R78) -/
  | ldAd8 (d8 : Byte)
  /-- `SBC A,B` (0x98, R85) -/
  | sbcAB
  /-- `SBC A,C` (0x99, R85) -/
  | sbcAC
  /-- `SBC A,D` (0x9A, R85) -/
  | sbcAD
  /-- `SBC A,E` (0x9B, R85) -/
  | sbcAE
  /-- `SBC A,H` (0x9C, R85) -/
  | sbcAH
  /-- `SBC A,L` (0x9D, R85) -/
  | sbcAL
  /-- `SBC A,(HL)` (0x9E, R86) -/
  | sbcAAtHL
  /-- `SBC A,A` (0x9F, R85) -/
  | sbcAA
  /-- `SBC A,d8` (0xDE, R87) -/
  | sbcAd8 (d8 : Byte)
  /-- `XOR B` (0xA8, R89) -/
  | xorB
  /-- `XOR C` (0xA9, R89) -/
  | xorC
  /-- `XOR D` (0xAA, R89) -/
  | xorD
  /-- `XOR E` (0xAB, R89) -/
  | xorE
  /-- `XOR H` (0xAC, R89) -/
  | xorH
  /-- `XOR L` (0xAD, R89) -/
  | xorL
  /-- `XOR (HL)` (0xAE, R90) -/
  | xorAtHL
  /-- `XOR A` (0xAF, R89) -/
  | xorA
  /-- `XOR d8` (0xEE, R91) -/
  | xord8 (d8 : Byte)
  /-- `CP B` (0xB8, R93) -/
  | cpB
  /-- `CP C` (0xB9, R93) -/
  | cpC
  /-- `CP D` (0xBA, R93) -/
  | cpD
  /-- `CP E` (0xBB, R93) -/
  | cpE
  /-- `CP H` (0xBC, R93) -/
  | cpH
  /-- `CP L` (0xBD, R93) -/
  | cpL
  /-- `CP (HL)` (0xBE, R94) -/
  | cpAtHL
  /-- `CP A` (0xBF, R93) -/
  | cpA
  /-- `CP d8` (0xFE, R95) -/
  | cpd8 (d8 : Byte)
  /-- `JP a16` (0xC3, R105) -/
  | jpA16 (a16 : Word)
  /-- `CALL a16` (0xCD, R106) -/
  | callA16 (a16 : Word)
  /-- `RET` (0xC9, R107) -/
  | ret
  /-- `RST 0x00` (0xC7, R108) -/
  | rst00
  /-- `RST 0x08` (0xCF, R108) -/
  | rst08
  /-- `RST 0x10` (0xD7, R108) -/
  | rst10
  /-- `RST 0x18` (0xDF, R108) -/
  | rst18
  /-- `RST 0x20` (0xE7, R108) -/
  | rst20
  /-- `RST 0x28` (0xEF, R108) -/
  | rst28
  /-- `RST 0x30` (0xF7, R108) -/
  | rst30
  /-- `RST 0x38` (0xFF, R108) -/
  | rst38
  /-- `PUSH BC` (0xC5, R109) -/
  | pushBC
  /-- `PUSH DE` (0xD5, R109) -/
  | pushDE
  /-- `PUSH HL` (0xE5, R109) -/
  | pushHL
  /-- `POP BC` (0xC1, R110) -/
  | popBC
  /-- `POP DE` (0xD1, R110) -/
  | popDE
  /-- `POP HL` (0xE1, R110) -/
  | popHL
  /-- an opcode byte whose table entry has no behaviour (R57, R58; log 17) -/
  | unimplemented (opcode : Byte)
  deriving DecidableEq, Repr

end Sys2Proof
end

