-- ==== Sys2Proof/WellFormed.lean ====
section
/-! DEFINITION. Which instructions are well formed: every operand fits by its type, and `unimplemented` carries one
of the 204 bytes outside the admitted set (30_encoding.md R57, R59). -/

namespace Sys2Proof

/-- `IMPLEMENTED` (R7, R56): the 52 opcode bytes whose table entry has a behaviour, in rising order. -/
def admittedOpcodes : List Byte :=
  [0x00, 0x09, 0x19, 0x28, 0x29, 0x38, 0x39, 0x3E, 0x98, 0x99, 0x9A, 0x9B, 0x9C] ++
  [0x9D, 0x9E, 0x9F, 0xA8, 0xA9, 0xAA, 0xAB, 0xAC, 0xAD, 0xAE, 0xAF, 0xB8, 0xB9] ++
  [0xBA, 0xBB, 0xBC, 0xBD, 0xBE, 0xBF, 0xC1, 0xC3, 0xC5, 0xC7, 0xC9, 0xCD, 0xCF] ++
  [0xD1, 0xD5, 0xD7, 0xDE, 0xDF, 0xE1, 0xE5, 0xE7, 0xEE, 0xEF, 0xF7, 0xFE, 0xFF]

/-- `unimplemented op` stands only for a byte outside `IMPLEMENTED` (R57); all else is well formed. -/
def Instr.wellFormed : Instr → Bool
  | .unimplemented op => !admittedOpcodes.contains op
  | .nop | .addHLBC | .addHLDE | .addHLHL | .addHLSP | .jrZ _ | .jrC _ | .ldAd8 _ | .sbcAB | .sbcAC | .sbcAD
  | .sbcAE | .sbcAH | .sbcAL | .sbcAAtHL | .sbcAA | .sbcAd8 _ | .xorB | .xorC | .xorD | .xorE | .xorH | .xorL
  | .xorAtHL | .xorA | .xord8 _ | .cpB | .cpC | .cpD | .cpE | .cpH | .cpL | .cpAtHL | .cpA | .cpd8 _ | .jpA16 _
  | .callA16 _ | .ret | .rst00 | .rst08 | .rst10 | .rst18 | .rst20 | .rst28 | .rst30 | .rst38 | .pushBC
  | .pushDE | .pushHL | .popBC | .popDE | .popHL => true

end Sys2Proof
end

