-- ==== Sys2Proof/Decode.lean ====
section
/-! DEFINITION. Decoding and encoding (30_encoding.md R47 to R60): the dispatch table, the decoder of bytes, total and
rejecting by name, the encoder, and `decodeTableWord`. -/

namespace Sys2Proof

/-- `hi ++ lo` (00_scope.md R8): the word with high byte `hi` and low byte `lo`. -/
def word (hi lo : Byte) : Word := BitVec.append hi lo

/-- Bits 7:0 of a word. -/
def lowByte (w : Word) : Byte := w.setWidth 8

/-- Bits 15:8 of a word. -/
def highByte (w : Word) : Byte := w.extractLsb' 8 8

/-- The two bytes of a word in memory order: little-endian (20_memory.md R33). -/
def leBytes (w : Word) : List Byte := [lowByte w, highByte w]

/-- The little-endian word of the first two of some bytes (R33, R49). -/
def leWord (bs : List Byte) : Word := word (bs.getD 1 0) (bs.getD 0 0)

/-- The instruction a table entry builds, by its operand length `OPLEN` (R48): `f0` none, `f1` one byte
(formats F1d and F1e), `f2` one word. -/
inductive Form where
  | f0 (i : Instr)
  | f1 (build : Byte → Instr)
  | f2 (build : Word → Instr)

/-- `OPLEN` (R47, R56). -/
def Form.oplen : Form → Nat
  | .f0 _ => 0
  | .f1 _ => 1
  | .f2 _ => 2

/-- A table entry with a behaviour (00_scope.md R12, 10_state.md R25): its diagnostic name (30_encoding.md R61), its
operand length and instruction. Its `BASE_COST` is a field of `Config`. -/
structure Entry where
  name : String
  form : Form

/-- The dispatch table `T` (10_state.md R25; R55, R56): 256 entries, total on opcode bytes, a function of the byte
alone (R60). `none` is an entry with no behaviour (R57, the prefix byte 0xCB among them, R58): that such an
entry holds no name is a DESIGN CHOICE (log 23), since R12 gives every entry one and R61 names only the forms of R56. -/
def dispatchTable (op : Byte) : Option Entry :=
  match op.toNat with
  | 0x00 => some ⟨"NOP", .f0 .nop⟩
  | 0x09 => some ⟨"ADD HL,rr", .f0 .addHLBC⟩
  | 0x19 => some ⟨"ADD HL,rr", .f0 .addHLDE⟩
  | 0x28 => some ⟨"JR Z,e8", .f1 .jrZ⟩
  | 0x29 => some ⟨"ADD HL,rr", .f0 .addHLHL⟩
  | 0x38 => some ⟨"JR C,e8", .f1 .jrC⟩
  | 0x39 => some ⟨"ADD HL,rr", .f0 .addHLSP⟩
  | 0x3E => some ⟨"LD A,d8", .f1 .ldAd8⟩
  | 0x98 => some ⟨"SBC A,r", .f0 .sbcAB⟩
  | 0x99 => some ⟨"SBC A,r", .f0 .sbcAC⟩
  | 0x9A => some ⟨"SBC A,r", .f0 .sbcAD⟩
  | 0x9B => some ⟨"SBC A,r", .f0 .sbcAE⟩
  | 0x9C => some ⟨"SBC A,r", .f0 .sbcAH⟩
  | 0x9D => some ⟨"SBC A,r", .f0 .sbcAL⟩
  | 0x9E => some ⟨"SBC A,(HL)", .f0 .sbcAAtHL⟩
  | 0x9F => some ⟨"SBC A,r", .f0 .sbcAA⟩
  | 0xA8 => some ⟨"XOR r", .f0 .xorB⟩
  | 0xA9 => some ⟨"XOR r", .f0 .xorC⟩
  | 0xAA => some ⟨"XOR r", .f0 .xorD⟩
  | 0xAB => some ⟨"XOR r", .f0 .xorE⟩
  | 0xAC => some ⟨"XOR r", .f0 .xorH⟩
  | 0xAD => some ⟨"XOR r", .f0 .xorL⟩
  | 0xAE => some ⟨"XOR (HL)", .f0 .xorAtHL⟩
  | 0xAF => some ⟨"XOR r", .f0 .xorA⟩
  | 0xB8 => some ⟨"CP r", .f0 .cpB⟩
  | 0xB9 => some ⟨"CP r", .f0 .cpC⟩
  | 0xBA => some ⟨"CP r", .f0 .cpD⟩
  | 0xBB => some ⟨"CP r", .f0 .cpE⟩
  | 0xBC => some ⟨"CP r", .f0 .cpH⟩
  | 0xBD => some ⟨"CP r", .f0 .cpL⟩
  | 0xBE => some ⟨"CP (HL)", .f0 .cpAtHL⟩
  | 0xBF => some ⟨"CP r", .f0 .cpA⟩
  | 0xC1 => some ⟨"POP pp", .f0 .popBC⟩
  | 0xC3 => some ⟨"JP a16", .f2 .jpA16⟩
  | 0xC5 => some ⟨"PUSH pp", .f0 .pushBC⟩
  | 0xC7 => some ⟨"RST t", .f0 .rst00⟩
  | 0xC9 => some ⟨"RET", .f0 .ret⟩
  | 0xCD => some ⟨"CALL a16", .f2 .callA16⟩
  | 0xCF => some ⟨"RST t", .f0 .rst08⟩
  | 0xD1 => some ⟨"POP pp", .f0 .popDE⟩
  | 0xD5 => some ⟨"PUSH pp", .f0 .pushDE⟩
  | 0xD7 => some ⟨"RST t", .f0 .rst10⟩
  | 0xDE => some ⟨"SBC A,d8", .f1 .sbcAd8⟩
  | 0xDF => some ⟨"RST t", .f0 .rst18⟩
  | 0xE1 => some ⟨"POP pp", .f0 .popHL⟩
  | 0xE5 => some ⟨"PUSH pp", .f0 .pushHL⟩
  | 0xE7 => some ⟨"RST t", .f0 .rst20⟩
  | 0xEE => some ⟨"XOR d8", .f1 .xord8⟩
  | 0xEF => some ⟨"RST t", .f0 .rst28⟩
  | 0xF7 => some ⟨"RST t", .f0 .rst30⟩
  | 0xFE => some ⟨"CP d8", .f1 .cpd8⟩
  | 0xFF => some ⟨"RST t", .f0 .rst38⟩
  | _ => none

/-- Why bytes hold no instruction: there is none, or its operand bytes are cut off. -/
inductive DecodeError where
  /-- no byte is left to read an opcode from -/
  | noOpcode
  /-- the operand of this opcode is cut off -/
  | operandMissing (opcode : Byte)
  deriving DecidableEq, Repr

/-- The instruction of an entry whose operand bytes lead `bs`, and the bytes after it (R49). -/
def Form.parse (op : Byte) : Form → List Byte → Except DecodeError (Instr × List Byte)
  | .f0 i, bs => .ok (i, bs)
  | .f1 mk, b :: bs => .ok (mk b, bs)
  | .f2 mk, lo :: hi :: bs => .ok (mk (word hi lo), bs)
  | .f1 _, [] => .error (.operandMissing op)
  | .f2 _, [] => .error (.operandMissing op)
  | .f2 _, [_] => .error (.operandMissing op)

/-- Decoding of bytes: the first instruction and the bytes after it (R47 to R49, R60). Total: an unimplemented opcode
decodes, one byte long, to the instruction that raises the fault (R57). -/
def decode : List Byte → Except DecodeError (Instr × List Byte)
  | [] => .error .noOpcode
  | op :: bs =>
    match dispatchTable op with
    | none => .ok (.unimplemented op, bs)
    | some e => e.form.parse op bs

/-- The opcode byte of an instruction (R56). -/
def Instr.opcode : Instr → Byte
  | .nop => 0x00
  | .addHLBC => 0x09
  | .addHLDE => 0x19
  | .addHLHL => 0x29
  | .addHLSP => 0x39
  | .jrZ _ => 0x28
  | .jrC _ => 0x38
  | .ldAd8 _ => 0x3E
  | .sbcAB => 0x98
  | .sbcAC => 0x99
  | .sbcAD => 0x9A
  | .sbcAE => 0x9B
  | .sbcAH => 0x9C
  | .sbcAL => 0x9D
  | .sbcAAtHL => 0x9E
  | .sbcAA => 0x9F
  | .sbcAd8 _ => 0xDE
  | .xorB => 0xA8
  | .xorC => 0xA9
  | .xorD => 0xAA
  | .xorE => 0xAB
  | .xorH => 0xAC
  | .xorL => 0xAD
  | .xorAtHL => 0xAE
  | .xorA => 0xAF
  | .xord8 _ => 0xEE
  | .cpB => 0xB8
  | .cpC => 0xB9
  | .cpD => 0xBA
  | .cpE => 0xBB
  | .cpH => 0xBC
  | .cpL => 0xBD
  | .cpAtHL => 0xBE
  | .cpA => 0xBF
  | .cpd8 _ => 0xFE
  | .jpA16 _ => 0xC3
  | .callA16 _ => 0xCD
  | .ret => 0xC9
  | .rst00 => 0xC7
  | .rst08 => 0xCF
  | .rst10 => 0xD7
  | .rst18 => 0xDF
  | .rst20 => 0xE7
  | .rst28 => 0xEF
  | .rst30 => 0xF7
  | .rst38 => 0xFF
  | .pushBC => 0xC5
  | .pushDE => 0xD5
  | .pushHL => 0xE5
  | .popBC => 0xC1
  | .popDE => 0xD1
  | .popHL => 0xE1
  | .unimplemented op => op

/-- The operand bytes of an instruction, in memory order (R48). -/
def Instr.operandBytes : Instr → List Byte
  | .jrZ e8 => [e8]
  | .jrC e8 => [e8]
  | .ldAd8 d8 => [d8]
  | .sbcAd8 d8 => [d8]
  | .xord8 d8 => [d8]
  | .cpd8 d8 => [d8]
  | .jpA16 a16 => leBytes a16
  | .callA16 a16 => leBytes a16
  | .nop | .addHLBC | .addHLDE | .addHLHL | .addHLSP | .sbcAB | .sbcAC | .sbcAD | .sbcAE | .sbcAH | .sbcAL
  | .sbcAAtHL | .sbcAA | .xorB | .xorC | .xorD | .xorE | .xorH | .xorL | .xorAtHL | .xorA | .cpB | .cpC | .cpD
  | .cpE | .cpH | .cpL | .cpAtHL | .cpA | .ret | .rst00 | .rst08 | .rst10 | .rst18 | .rst20 | .rst28 | .rst30
  | .rst38 | .pushBC | .pushDE | .pushHL | .popBC | .popDE | .popHL
  | .unimplemented _ => []

/-- The bytes of an instruction, from its opcode address upward (R48). -/
def Instr.encode (i : Instr) : List Byte := i.opcode :: i.operandBytes

/-- The length of an instruction in bytes: 1, 2 or 3 (R47). -/
def Instr.length (i : Instr) : Nat := i.encode.length

/-- The offset byte an assembler emits for a label, from the fall-through address (R61): the offset is unsigned, so a label
more than 255 above is refused. -/
def labelOffset (label fallthrough : Word) : Option Byte :=
  if (label - fallthrough).toNat ≤ 255 then some (BitVec.ofNat 8 (label - fallthrough).toNat) else none

/-- The longest instruction, in bytes (R47). -/
def maxLength : Nat := 3

/-- The bytes of the table word `w` of `nbits` bits as the hardware stores them, `maxLength` of them: the byte
at the lower address first, and every bit above `nbits` zero. -/
def tableWordBytes (nbits w : Nat) : List Byte :=
  [BitVec.ofNat 8 (w % 2 ^ nbits), BitVec.ofNat 8 (w % 2 ^ nbits / 256), BitVec.ofNat 8 (w % 2 ^ nbits / 65536)]

/-- The instruction the decoder reads from a table word (log 12). -/
def decodeTableWord (nbits w : Nat) : Option Instr :=
  match decode (tableWordBytes nbits w) with
  | .ok (i, _) => some i
  | .error _ => none

end Sys2Proof
end

