-- ==== Sys2Proof/Machine/Params.lean ====
section
/-! DEFINITION. The values of the parameters of 00_scope.md R7: the hardware's, and the reference costs of
70_reset_and_hazards.md R137. -/

namespace Sys2Proof.Machine

/-- Where a rule itself says that a behaviour sets no override, so that `OVERRIDE(op, taken)` is 0 there (log 5): `NOP`
(41_basic.md R77), `LD A,d8` and `XOR A` (R78 and the source's end-to-end example, 95_test_vectors.md L1-10), `JP a16`
(43_control_stack.md R105), a relative jump not taken (R102). -/
def setsNoOverride (op : Byte) (taken : Bool) : Bool :=
  op == 0x00 || op == 0x3E || op == 0xAF || op == 0xC3 || ((op == 0x28 || op == 0x38) && !taken)

/-- This hardware (R7): `Wrap` (log 6), `Preserve` (log 7), every address valid (log 8), costs open (log 4), overrides
open but where a rule says that none is set (log 5). -/
def hardware : Config where
  overflowPolicy := .wrap
  cpUnfired := .preserve
  memValid := fun _ => true
  baseCost := Config.openBaseCost
  override := fun op taken => if setsNoOverride op taken then 0 else Config.openOverride op taken

/-- The reference `BASE_COST` of R137; an unimplemented entry has none (30_encoding.md R57), written 0 and never read. -/
def referenceBaseCost (op : Byte) : Word :=
  match op.toNat with
  | 0x00 | 0x98 | 0x99 | 0x9A | 0x9B | 0x9C | 0x9D | 0x9F | 0xA8 | 0xA9 | 0xAA | 0xAB | 0xAC | 0xAD | 0xAF
  | 0xB8 | 0xB9 | 0xBA | 0xBB | 0xBC | 0xBD | 0xBF => 4
  | 0x09 | 0x19 | 0x28 | 0x29 | 0x38 | 0x39 | 0x3E | 0x9E | 0xAE | 0xBE | 0xDE | 0xEE | 0xFE => 8
  | 0xC1 | 0xD1 | 0xE1 => 12
  | 0xC3 | 0xC5 | 0xC7 | 0xC9 | 0xCF | 0xD5 | 0xD7 | 0xDF | 0xE5 | 0xE7 | 0xEF | 0xF7 | 0xFF => 16
  | 0xCD => 24
  | _ => 0

/-- The reference `JR_TAKEN_COST` (R137). -/
def referenceJrTakenCost : Word := 12

/-- The reference `OVERRIDE` (R137): only a taken `JR Z` or `JR C` sets one. -/
def referenceOverride (jrTakenCost : Word) (op : Byte) (taken : Bool) : Word :=
  if taken && (op == 0x28 || op == 0x38) then jrTakenCost else 0

/-- The hardware with the reference costs (R137), for numeric `CLK` values. -/
def referenceCosts : Config :=
  { hardware with
    baseCost := referenceBaseCost
    override := referenceOverride referenceJrTakenCost }

end Sys2Proof.Machine
end

