-- ==== Sys2Proof/Machine/State.lean ====
section
/-! DEFINITION. The state of the machine (10_state.md R13 to R24, R29), the fault record (60_exceptions.md R113), and the
reasons a step can stop. State is plain data. -/

namespace Sys2Proof.Machine

/-- The fault kinds of 60_exceptions.md R113. -/
inductive FaultKind where
  | unimplementedOpcode
  | memoryOutOfBounds
  | addressOverflow
  deriving DecidableEq, Repr

/-- The fault record (10_state.md R24, R113). `address` is the byte address of an out-of-bounds access, or the base
`x` of an overflowing `seq16`; `step` is that `seq16`'s step `k`; `opcode` is `none` when the fetch failed (log 2). -/
structure FaultRecord where
  kind    : FaultKind
  opcode  : Option Byte
  pc      : Word
  address : Option Word
  step    : Option Int
  deriving DecidableEq, Repr

/-- The flat memory (20_memory.md R37) as the cells that differ from what an unlisted address reads as, addresses
strictly rising (`Memory.wf`, Machine/Ops.lean). -/
abbrev Memory := List Host.Cell

/-- Everything the spec gives the machine (R29). -/
structure State where
  /-- `A`, the accumulator (R14) -/
  a : Byte
  /-- `B` (R13) -/
  b : Byte
  /-- `C` (R13) -/
  c : Byte
  /-- `D` (R13) -/
  d : Byte
  /-- `E` (R13) -/
  e : Byte
  /-- `H` (R13) -/
  h : Byte
  /-- `L` (R13) -/
  l : Byte
  /-- `F`, the flag byte (R19, R20) -/
  f : Byte
  /-- `SP` (R17) -/
  sp : Word
  /-- `PC` (R18) -/
  pc : Word
  /-- `CLK`, the cumulative clock (R22) -/
  clk : Word
  /-- `OVR`, the cycle override (R23) -/
  ovr : Word
  /-- `FAULT` (R24) -/
  fault : Option FaultRecord
  /-- memory (20_memory.md R30, R37) -/
  mem : Memory
  deriving DecidableEq, Repr

/-- Why a step answers no next state. -/
inductive Fault where
  /-- Raised by the step alone, in a state with `FAULT` set: no step is enabled there (R24, 40_execute_loop.md R62).
  Safe: the spec takes no step in such a state. -/
  | stopped (record : FaultRecord)
  deriving DecidableEq, Repr

/-- What the model turns away. -/
inductive Refusal where
  /-- Raised by an arm of `exec` with no meaning yet; no arm is one. Safe: nothing runs. -/
  | notModelled (mnemonic : String)
  /-- Raised by the launch alone, never by a step: an image longer than the address space is refused and no step
  runs (20_memory.md R46). Safe: the spec refuses it. -/
  | imageTooLong (length : Nat)
  deriving DecidableEq, Repr

/-- The state after power-on reset, before the program load (R29, 70_reset_and_hazards.md R128 step 2): everything
zero, `FAULT` none, nothing listed in memory (log 3, log 15). -/
def State.reset : State where
  a := 0x00
  b := 0x00
  c := 0x00
  d := 0x00
  e := 0x00
  h := 0x00
  l := 0x00
  f := 0x00
  sp := 0x0000
  pc := 0x0000
  clk := 0x0000
  ovr := 0x0000
  fault := none
  mem := []

end Sys2Proof.Machine
end

