-- ==== Sys2Proof/Machine/Ops.lean ====
section
/-! DEFINITION. The operations every instruction is built from: flat memory, raising a fault, `seq16`, the memory
interface, the stack and control-transfer engine, and running a behaviour (00_scope.md R10, R11; 20_memory.md R30 to
R38; 43_control_stack.md R97 to R101; 60_exceptions.md R113 to R117). -/

namespace Sys2Proof.Machine

/-! ### Flat memory -/

/-- How many byte addresses there are (20_memory.md R30). -/
def addressSpace : Nat := 65536

/-- What an address reads as when memory lists nothing there (R46 leaves it to `INIT_MEM`; log 3). -/
def unlistedByte : Byte := 0x00

/-- The byte at an address (R37). -/
def readCell : Memory → Nat → Byte
  | [], _ => unlistedByte
  | (k, v) :: m, a => if a = k then v else readCell m a

/-- A cell in front of a memory, left out where the address reads as that byte anyway. -/
def listCell (a : Nat) (v : Byte) (m : Memory) : Memory :=
  if v = unlistedByte then m else (a, v) :: m

/-- Store a byte at an address (R38), keeping the canonical form. -/
def writeCell : Memory → Nat → Byte → Memory
  | [], a, v => listCell a v []
  | (k, w) :: m, a, v =>
    if a < k then listCell a v ((k, w) :: m)
    else if a = k then listCell a v m
    else (k, w) :: writeCell m a v

/-- Cells from address `lo` upward: strictly rising, inside the address space, none equal to `unlistedByte`. -/
def Memory.wfFrom (lo : Nat) : Memory → Bool
  | [] => true
  | (k, v) :: m => decide (lo ≤ k) && decide (k < addressSpace) && decide (v ≠ unlistedByte) && wfFrom (k + 1) m

/-- The canonical form of a memory. -/
def Memory.wf (m : Memory) : Bool := Memory.wfFrom 0 m

/-- Store bytes from an address upward: the loader's `load_program` (R46). -/
def writeCells : Memory → Nat → List Byte → Memory
  | m, _, [] => m
  | m, a, b :: bs => writeCells (writeCell m a b) (a + 1) bs

/-- The byte memory holds at an address. -/
def State.byteAt (s : State) (a : Word) : Byte := readCell s.mem a.toNat

/-! ### Named updates -/

/-- `PC <- v` -/
def State.withPc (s : State) (v : Word) : State := { s with pc := v }

/-- `SP <- v` -/
def State.withSp (s : State) (v : Word) : State := { s with sp := v }

/-- `F <- v` -/
def State.withF (s : State) (v : Byte) : State := { s with f := v }

/-- `A <- v` -/
def State.withA (s : State) (v : Byte) : State := { s with a := v }

/-- `OVR <- v` -/
def State.withOvr (s : State) (v : Word) : State := { s with ovr := v }

/-- `CLK <- v` -/
def State.withClk (s : State) (v : Word) : State := { s with clk := v }

/-- `mem[a] <- v` -/
def State.withByte (s : State) (a : Word) (v : Byte) : State := { s with mem := writeCell s.mem a.toNat v }

/-! ### Raising a fault -/

/-- The code of a fault kind (R113). -/
def FaultKind.code : FaultKind → Nat
  | .unimplementedOpcode => 1
  | .memoryOutOfBounds => 2
  | .addressOverflow => 3

/-- What a fault record says of the running instruction (R113): its opcode, `none` while it is being fetched, and the
address of its opcode byte. -/
structure Site where
  opcode : Option Byte
  pc     : Word
  deriving DecidableEq, Repr

/-- Taking a fault (R117), shared by all kinds: `FAULT` is set to the record. Nothing else changes: no handler, no saved
state, no transfer of control; the effects done before stay. -/
def State.raise (s : State) (r : FaultRecord) : State := { s with fault := some r }

/-- The record of `UnimplementedOpcode` (R114). -/
def Site.unimplemented (site : Site) : FaultRecord := ⟨.unimplementedOpcode, site.opcode, site.pc, none, none⟩

/-- The record of `MemoryOutOfBounds` at a byte address (R115). -/
def Site.outOfBounds (site : Site) (a : Word) : FaultRecord := ⟨.memoryOutOfBounds, site.opcode, site.pc, some a, none⟩

/-- The record of `AddressOverflow` of `seq16 x k` (R116, R10). -/
def Site.overflow (site : Site) (x : Word) (k : Int) : FaultRecord :=
  ⟨.addressOverflow, site.opcode, site.pc, some x, some k⟩

/-- How a part of a step ends: with a value, or with a fault raised; either way with the state it leaves (R117). -/
inductive Res (α : Type) where
  | ok (v : α) (s : State)
  | raised (s : State)
  deriving DecidableEq, Repr

/-- Go on with the value and the state, unless a fault was raised: nothing after it happens (R117). -/
def Res.bind {α β : Type} (r : Res α) (k : α → State → Res β) : Res β :=
  match r with
  | .ok v s => k v s
  | .raised s => .raised s

/-! ### Sequencer arithmetic -/

/-- `seq16(x, k)` (00_scope.md R10); `none` is the overflow under `Fault`. -/
def seq16 (c : Config) (x : Word) (k : Int) : Option Word :=
  let s : Int := x.toNat + k
  if 0 ≤ s ∧ s.toNat ≤ 0xFFFF then some (BitVec.ofInt 16 s)
  else
    match c.overflowPolicy with
    | .wrap => some (BitVec.ofInt 16 s)
    | .fault => none

/-- `seq16` inside a step: the overflow raises `AddressOverflow(base = x, step = k)` (R10, R116). -/
def seqStep (c : Config) (site : Site) (x : Word) (k : Int) (s : State) : Res Word :=
  match seq16 c x k with
  | some y => .ok y s
  | none => .raised (s.raise (site.overflow x k))

/-- `PC <- seq16(PC, k)` (40_execute_loop.md R66, R68). -/
def advancePc (c : Config) (site : Site) (k : Int) (s : State) : Res Unit :=
  (seqStep c site s.pc k s).bind fun y s => .ok () (s.withPc y)

/-! ### The memory interface (20_memory.md R31) -/

/-- `read_byte`: `MemRead(a, 1)` (R11, R36, R37). -/
def readByte (c : Config) (site : Site) (a : Word) (s : State) : Res Byte :=
  if c.memValid a then .ok (s.byteAt a) s else .raised (s.raise (site.outOfBounds a))

/-- `write_byte`: `MemWrite(a, 1, v)` (R11, R36, R38). -/
def writeByte (c : Config) (site : Site) (a : Word) (v : Byte) (s : State) : Res Unit :=
  if c.memValid a then .ok () (s.withByte a v) else .raised (s.raise (site.outOfBounds a))

/-- Reading the bytes number `i` to `i + n - 1` of a multi-byte access at `a`, in ascending order (R34). -/
def readBytesFrom (c : Config) (site : Site) (a : Word) : Nat → Nat → State → Res (List Byte)
  | _, 0, s => .ok [] s
  | i, n + 1, s =>
    (seqStep c site a i s).bind fun y s =>
    (readByte c site y s).bind fun v s =>
    (readBytesFrom c site a (i + 1) n s).bind fun vs s => .ok (v :: vs) s

/-- `read_bytes<N>(a)` (R31). -/
def readBytes (c : Config) (site : Site) (a : Word) (n : Nat) (s : State) : Res (List Byte) :=
  readBytesFrom c site a 0 n s

/-- Writing bytes as number `i` upward of a multi-byte access at `a`, in ascending order (R34). -/
def writeBytesFrom (c : Config) (site : Site) (a : Word) : Nat → List Byte → State → Res Unit
  | _, [], s => .ok () s
  | i, v :: vs, s =>
    (seqStep c site a i s).bind fun y s =>
    (writeByte c site y v s).bind fun _ s => writeBytesFrom c site a (i + 1) vs s

/-- `write_bytes(a, bytes)` (R31). -/
def writeBytes (c : Config) (site : Site) (a : Word) (vs : List Byte) (s : State) : Res Unit :=
  writeBytesFrom c site a 0 vs s

/-- `read_word`: `MemRead(a, 2)`, little-endian (R31, R33). -/
def readWord (c : Config) (site : Site) (a : Word) (s : State) : Res Word :=
  (readBytes c site a 2 s).bind fun vs s => .ok (leWord vs) s

/-- `write_word`: `MemWrite(a, 2, v)`, little-endian (R31, R33); no admitted instruction uses it (R32). -/
def writeWord (c : Config) (site : Site) (a v : Word) (s : State) : Res Unit :=
  writeBytes c site a (leBytes v) s

/-! ### Stack and control transfer (43_control_stack.md) -/

/-- `push(N, bytes)` (R97): write from SP upward, then move SP down by N. -/
def push (c : Config) (site : Site) (vs : List Byte) (s : State) : Res Unit :=
  (writeBytes c site s.sp vs s).bind fun _ s =>
  (seqStep c site s.sp (-(vs.length : Int)) s).bind fun y s => .ok () (s.withSp y)

/-- `pop(N)` (R98): read N bytes at PC, not at SP, and advance PC by N. -/
def pop (c : Config) (site : Site) (n : Nat) (s : State) : Res (List Byte) :=
  (readBytes c site s.pc n s).bind fun vs s =>
  (advancePc c site n s).bind fun _ s => .ok vs s

/-- `push_program_counter()` (R99): the current PC, the fall-through address inside a behaviour, low byte at SP. -/
def pushProgramCounter (c : Config) (site : Site) (s : State) : Res Unit := push c site (leBytes s.pc) s

/-- `jump(target)` (R100). -/
def jump (target : Word) (s : State) : Res Unit := .ok () (s.withPc target)

/-- `reset(vector)`, the restart operation (R101). -/
def restart (c : Config) (site : Site) (vector : Word) (s : State) : Res Unit :=
  (pushProgramCounter c site s).bind fun _ s => jump vector s

/-- The address of restart vector `t`: `t * 8` (30_encoding.md R53). -/
def rstVector (t : Nat) : Word := BitVec.ofNat 16 (t * 8)

/-! ### Running a behaviour -/

/-- What OVR holds after a behaviour that found it at `ovr` (40_execute_loop.md R70): `OVERRIDE(op, taken)` where that is
not zero, else what it held. -/
def overrideAfter (c : Config) (op : Byte) (taken : Bool) (ovr : Word) : Word :=
  if c.override op taken = 0 then ovr else c.override op taken

/-- Run the behaviour `body` of instruction `i` (R70). PC holds the fall-through address on entry, so the opcode
stands `i.length` bytes below it (log 11). The body answers whether a relative jump was taken. A body that raises ends
the step with `FAULT` set (R117). -/
def behave (c : Config) (i : Instr) (body : Site → State → Res Bool) (s : State) :
    Host.Outcome State Fault Refusal :=
  match body ⟨some i.opcode, s.pc - BitVec.ofNat 16 i.length⟩ s with
  | .ok taken s' => .next (s'.withOvr (overrideAfter c i.opcode taken s'.ovr))
  | .raised s' => .next s'

/-- A body that is no relative jump: `taken` is false (R70). -/
def plain (r : Res Unit) : Res Bool := r.bind fun _ s => .ok false s

end Sys2Proof.Machine
end

