-- ==== Sys2Proof/Machine/Operands.lean ====
section
/-! DEFINITION. Operands: the register and pair names and their fields (10_state.md R13, R15; 30_encoding.md R50 to
R52), and the 8-bit operand source (42_alu_flags.md R81). -/

namespace Sys2Proof.Machine

/-- The 8-bit registers (10_state.md R13). -/
inductive Reg where
  | a
  | b
  | c
  | d
  | e
  | h
  | l
  deriving DecidableEq, Repr

/-- `reg(r)`: none is hard-wired (R13). -/
def State.reg (s : State) : Reg → Byte
  | .a => s.a
  | .b => s.b
  | .c => s.c
  | .d => s.d
  | .e => s.e
  | .h => s.h
  | .l => s.l

/-- `reg(r) <- v` -/
def State.setReg (s : State) (r : Reg) (v : Byte) : State :=
  match r with
  | .a => { s with a := v }
  | .b => { s with b := v }
  | .c => { s with c := v }
  | .d => { s with d := v }
  | .e => { s with e := v }
  | .h => { s with h := v }
  | .l => { s with l := v }

/-- The register pairs (R15); there is no AF (R16). -/
inductive Pair where
  | bc
  | de
  | hl
  deriving DecidableEq, Repr

/-- The first-named register of a pair: its low byte (R15). -/
def Pair.first : Pair → Reg
  | .bc => .b
  | .de => .d
  | .hl => .h

/-- The second-named register of a pair: its high byte (R15). -/
def Pair.second : Pair → Reg
  | .bc => .c
  | .de => .e
  | .hl => .l

/-- `pair(XY) = Y ++ X` (R15). -/
def State.pair (s : State) (p : Pair) : Word := word (s.reg p.second) (s.reg p.first)

/-- `setpair(XY, v)`: X <- v[7:0], Y <- v[15:8] (R15). -/
def State.setPair (s : State) (p : Pair) (v : Word) : State :=
  (s.setReg p.first (lowByte v)).setReg p.second (highByte v)

/-- Where an 8-bit operand comes from (42_alu_flags.md R81). -/
inductive Src8 where
  | reg (r : Reg)
  | atHL
  | imm (d8 : Byte)
  deriving DecidableEq, Repr

/-- `src8` (R81): only the `(HL)` form touches memory, at `pair(HL) = L ++ H`. -/
def src8 (c : Config) (site : Site) (src : Src8) (s : State) : Res Byte :=
  match src with
  | .reg r => .ok (s.reg r) s
  | .atHL => readByte c site (s.pair .hl) s
  | .imm d8 => .ok d8 s

/-- The register field `r`, opcode bits 2:0 (30_encoding.md R50). -/
def srcOfField (op : Byte) : Src8 :=
  match op.toNat % 8 with
  | 0 => .reg .b
  | 1 => .reg .c
  | 2 => .reg .d
  | 3 => .reg .e
  | 4 => .reg .h
  | 5 => .reg .l
  | 6 => .atHL
  | _ => .reg .a

/-- The addend of the 16-bit add: a pair or SP (R51). -/
inductive Addend where
  | pair (p : Pair)
  | sp
  deriving DecidableEq, Repr

/-- The value of an addend (42_alu_flags.md R83). -/
def State.addend (s : State) : Addend → Word
  | .pair p => s.pair p
  | .sp => s.sp

end Sys2Proof.Machine
end

