-- ==== Sys2Proof/Machine/Add16.lean ====
section
/-! DEFINITION. ADD HL,rr (42_alu_flags.md R82, R83). -/

namespace Sys2Proof.Machine

/-- `ADD HL,rr` (R83): both operands are read before HL is written. -/
def addHL (x : Addend) (_site : Site) (s : State) : Res Bool :=
  let dst := s.pair .hl
  let addend := s.addend x
  .ok false ((s.withF (add16Flags dst addend s.f)).setPair .hl (add16Result dst addend))

/-- `ADD HL,BC`, 0x09 (R83), on any parameters. -/
def execAddHLBCOn (c : Config) (s : State) : Host.Outcome State Fault Refusal :=
  behave c .addHLBC (addHL (.pair .bc)) s

/-- `ADD HL,BC`, 0x09 (R83), on this hardware. -/
def execAddHLBC (s : State) : Host.Outcome State Fault Refusal := execAddHLBCOn hardware s

/-- `ADD HL,DE`, 0x19 (R83), on any parameters. -/
def execAddHLDEOn (c : Config) (s : State) : Host.Outcome State Fault Refusal :=
  behave c .addHLDE (addHL (.pair .de)) s

/-- `ADD HL,DE`, 0x19 (R83), on this hardware. -/
def execAddHLDE (s : State) : Host.Outcome State Fault Refusal := execAddHLDEOn hardware s

/-- `ADD HL,HL`, 0x29 (R83), on any parameters. -/
def execAddHLHLOn (c : Config) (s : State) : Host.Outcome State Fault Refusal :=
  behave c .addHLHL (addHL (.pair .hl)) s

/-- `ADD HL,HL`, 0x29 (R83), on this hardware. -/
def execAddHLHL (s : State) : Host.Outcome State Fault Refusal := execAddHLHLOn hardware s

/-- `ADD HL,SP`, 0x39 (R83), on any parameters. -/
def execAddHLSPOn (c : Config) (s : State) : Host.Outcome State Fault Refusal :=
  behave c .addHLSP (addHL .sp) s

/-- `ADD HL,SP`, 0x39 (R83), on this hardware. -/
def execAddHLSP (s : State) : Host.Outcome State Fault Refusal := execAddHLSPOn hardware s

end Sys2Proof.Machine
end

