-- ==== Sys2Proof/Machine/Basic.lean ====
section
/-! DEFINITION. NOP and LD A,d8 (41_basic.md R77, R78), and the fault of an opcode without a behaviour (30_encoding.md
R57, 60_exceptions.md R114). -/

namespace Sys2Proof.Machine

/-- A table entry without a behaviour (R57, R114, R58): `UnimplementedOpcode` is raised at decode, so PC is still the
opcode's address, and nothing but `FAULT` changes. -/
def execUnimplementedOn (_c : Config) (op : Byte) (s : State) : Host.Outcome State Fault Refusal :=
  .next (s.raise (Site.unimplemented ⟨some op, s.pc⟩))

/-- `UNIMPLEMENTED` (R57, R114), on this hardware. -/
def execUnimplemented (op : Byte) (s : State) : Host.Outcome State Fault Refusal := execUnimplementedOn hardware op s

/-- `NOP`, 0x00 (R77), on any parameters. -/
def execNopOn (c : Config) (s : State) : Host.Outcome State Fault Refusal :=
  behave c .nop (fun _ s => .ok false s) s

/-- `NOP`, 0x00 (R77), on this hardware. -/
def execNop (s : State) : Host.Outcome State Fault Refusal := execNopOn hardware s

/-- `LD A,d8`, 0x3E (R78), on any parameters. -/
def execLdAd8On (c : Config) (d8 : Byte) (s : State) : Host.Outcome State Fault Refusal :=
  behave c (.ldAd8 d8) (fun _ s => .ok false (s.withA d8)) s

/-- `LD A,d8`, 0x3E (R78), on this hardware. -/
def execLdAd8 (d8 : Byte) (s : State) : Host.Outcome State Fault Refusal := execLdAd8On hardware d8 s

end Sys2Proof.Machine
end

