-- ==== Sys2Proof/Machine/Cp.lean ====
section
/-! DEFINITION. CP r / (HL) / d8 (42_alu_flags.md R92 to R95). -/

namespace Sys2Proof.Machine

/-- `cp(src8)` (R92): only the flags are written. -/
def cp (c : Config) (src : Src8) (site : Site) (s : State) : Res Bool :=
  (src8 c site src s).bind fun x s => .ok false (s.withF (cpFlags c.cpUnfired s.a x s.f))

/-- `CP B`, 0xB8 (R93), on any parameters. -/
def execCpBOn (c : Config) (s : State) : Host.Outcome State Fault Refusal :=
  behave c .cpB (cp c (.reg .b)) s

/-- `CP B`, 0xB8 (R93), on this hardware. -/
def execCpB (s : State) : Host.Outcome State Fault Refusal := execCpBOn hardware s

/-- `CP C`, 0xB9 (R93), on any parameters. -/
def execCpCOn (c : Config) (s : State) : Host.Outcome State Fault Refusal :=
  behave c .cpC (cp c (.reg .c)) s

/-- `CP C`, 0xB9 (R93), on this hardware. -/
def execCpC (s : State) : Host.Outcome State Fault Refusal := execCpCOn hardware s

/-- `CP D`, 0xBA (R93), on any parameters. -/
def execCpDOn (c : Config) (s : State) : Host.Outcome State Fault Refusal :=
  behave c .cpD (cp c (.reg .d)) s

/-- `CP D`, 0xBA (R93), on this hardware. -/
def execCpD (s : State) : Host.Outcome State Fault Refusal := execCpDOn hardware s

/-- `CP E`, 0xBB (R93), on any parameters. -/
def execCpEOn (c : Config) (s : State) : Host.Outcome State Fault Refusal :=
  behave c .cpE (cp c (.reg .e)) s

/-- `CP E`, 0xBB (R93), on this hardware. -/
def execCpE (s : State) : Host.Outcome State Fault Refusal := execCpEOn hardware s

/-- `CP H`, 0xBC (R93), on any parameters. -/
def execCpHOn (c : Config) (s : State) : Host.Outcome State Fault Refusal :=
  behave c .cpH (cp c (.reg .h)) s

/-- `CP H`, 0xBC (R93), on this hardware. -/
def execCpH (s : State) : Host.Outcome State Fault Refusal := execCpHOn hardware s

/-- `CP L`, 0xBD (R93), on any parameters. -/
def execCpLOn (c : Config) (s : State) : Host.Outcome State Fault Refusal :=
  behave c .cpL (cp c (.reg .l)) s

/-- `CP L`, 0xBD (R93), on this hardware. -/
def execCpL (s : State) : Host.Outcome State Fault Refusal := execCpLOn hardware s

/-- `CP (HL)`, 0xBE (R94), on any parameters. -/
def execCpAtHLOn (c : Config) (s : State) : Host.Outcome State Fault Refusal :=
  behave c .cpAtHL (cp c .atHL) s

/-- `CP (HL)`, 0xBE (R94), on this hardware. -/
def execCpAtHL (s : State) : Host.Outcome State Fault Refusal := execCpAtHLOn hardware s

/-- `CP A`, 0xBF (R93), on any parameters. -/
def execCpAOn (c : Config) (s : State) : Host.Outcome State Fault Refusal :=
  behave c .cpA (cp c (.reg .a)) s

/-- `CP A`, 0xBF (R93), on this hardware. -/
def execCpA (s : State) : Host.Outcome State Fault Refusal := execCpAOn hardware s

/-- `CP d8`, 0xFE (R95), on any parameters. -/
def execCpd8On (c : Config) (d8 : Byte) (s : State) : Host.Outcome State Fault Refusal :=
  behave c (.cpd8 d8) (cp c (.imm d8)) s

/-- `CP d8`, 0xFE (R95), on this hardware. -/
def execCpd8 (d8 : Byte) (s : State) : Host.Outcome State Fault Refusal := execCpd8On hardware d8 s

end Sys2Proof.Machine
end

