-- ==== Sys2Proof/Machine/Jump.lean ====
section
/-! DEFINITION. JR Z / JR C / JP (43_control_stack.md R100, R102 to R105). -/

namespace Sys2Proof.Machine

/-- `cond_rel_jump(pattern, e8)` (R102): taken iff the whole flag byte equals the pattern; the offset is unsigned and
added to the fall-through address. -/
def condRelJump (c : Config) (pattern : List Flag) (e8 : Byte) (site : Site) (s : State) : Res Bool :=
  if s.f = flagByte pattern then
    (advancePc c site (e8.toNat : Int) s).bind fun _ s => .ok true s
  else .ok false s

/-- `JR Z,e8`, 0x28 (R103), on any parameters. -/
def execJrZOn (c : Config) (e8 : Byte) (s : State) : Host.Outcome State Fault Refusal :=
  behave c (.jrZ e8) (condRelJump c [.zero] e8) s

/-- `JR Z,e8`, 0x28 (R103), on this hardware. -/
def execJrZ (e8 : Byte) (s : State) : Host.Outcome State Fault Refusal := execJrZOn hardware e8 s

/-- `JR C,e8`, 0x38 (R104), on any parameters. -/
def execJrCOn (c : Config) (e8 : Byte) (s : State) : Host.Outcome State Fault Refusal :=
  behave c (.jrC e8) (condRelJump c [.carry] e8) s

/-- `JR C,e8`, 0x38 (R104), on this hardware. -/
def execJrC (e8 : Byte) (s : State) : Host.Outcome State Fault Refusal := execJrCOn hardware e8 s

/-- `JP a16`, 0xC3 (R105), on any parameters. -/
def execJpA16On (c : Config) (a16 : Word) (s : State) : Host.Outcome State Fault Refusal :=
  behave c (.jpA16 a16) (fun _ s => plain (jump a16 s)) s

/-- `JP a16`, 0xC3 (R105), on this hardware. -/
def execJpA16 (a16 : Word) (s : State) : Host.Outcome State Fault Refusal := execJpA16On hardware a16 s

end Sys2Proof.Machine
end

