-- ==== Sys2Proof/Machine/Sbc.lean ====
section
/-! DEFINITION. SBC A,r / (HL) / d8 (42_alu_flags.md R84 to R87). -/

namespace Sys2Proof.Machine

/-- `sbc(src8)` (R84): the flags are written; the difference is discarded, so A is not, and no
borrow comes in (log 16). -/
def sbc (c : Config) (src : Src8) (site : Site) (s : State) : Res Bool :=
  (src8 c site src s).bind fun x s => .ok false (s.withF (sbcFlags s.a x s.f))

/-- `SBC A,B`, 0x98 (R85), on any parameters. -/
def execSbcABOn (c : Config) (s : State) : Host.Outcome State Fault Refusal :=
  behave c .sbcAB (sbc c (.reg .b)) s

/-- `SBC A,B`, 0x98 (R85), on this hardware. -/
def execSbcAB (s : State) : Host.Outcome State Fault Refusal := execSbcABOn hardware s

/-- `SBC A,C`, 0x99 (R85), on any parameters. -/
def execSbcACOn (c : Config) (s : State) : Host.Outcome State Fault Refusal :=
  behave c .sbcAC (sbc c (.reg .c)) s

/-- `SBC A,C`, 0x99 (R85), on this hardware. -/
def execSbcAC (s : State) : Host.Outcome State Fault Refusal := execSbcACOn hardware s

/-- `SBC A,D`, 0x9A (R85), on any parameters. -/
def execSbcADOn (c : Config) (s : State) : Host.Outcome State Fault Refusal :=
  behave c .sbcAD (sbc c (.reg .d)) s

/-- `SBC A,D`, 0x9A (R85), on this hardware. -/
def execSbcAD (s : State) : Host.Outcome State Fault Refusal := execSbcADOn hardware s

/-- `SBC A,E`, 0x9B (R85), on any parameters. -/
def execSbcAEOn (c : Config) (s : State) : Host.Outcome State Fault Refusal :=
  behave c .sbcAE (sbc c (.reg .e)) s

/-- `SBC A,E`, 0x9B (R85), on this hardware. -/
def execSbcAE (s : State) : Host.Outcome State Fault Refusal := execSbcAEOn hardware s

/-- `SBC A,H`, 0x9C (R85), on any parameters. -/
def execSbcAHOn (c : Config) (s : State) : Host.Outcome State Fault Refusal :=
  behave c .sbcAH (sbc c (.reg .h)) s

/-- `SBC A,H`, 0x9C (R85), on this hardware. -/
def execSbcAH (s : State) : Host.Outcome State Fault Refusal := execSbcAHOn hardware s

/-- `SBC A,L`, 0x9D (R85), on any parameters. -/
def execSbcALOn (c : Config) (s : State) : Host.Outcome State Fault Refusal :=
  behave c .sbcAL (sbc c (.reg .l)) s

/-- `SBC A,L`, 0x9D (R85), on this hardware. -/
def execSbcAL (s : State) : Host.Outcome State Fault Refusal := execSbcALOn hardware s

/-- `SBC A,(HL)`, 0x9E (R86), on any parameters. -/
def execSbcAAtHLOn (c : Config) (s : State) : Host.Outcome State Fault Refusal :=
  behave c .sbcAAtHL (sbc c .atHL) s

/-- `SBC A,(HL)`, 0x9E (R86), on this hardware. -/
def execSbcAAtHL (s : State) : Host.Outcome State Fault Refusal := execSbcAAtHLOn hardware s

/-- `SBC A,A`, 0x9F (R85), on any parameters. -/
def execSbcAAOn (c : Config) (s : State) : Host.Outcome State Fault Refusal :=
  behave c .sbcAA (sbc c (.reg .a)) s

/-- `SBC A,A`, 0x9F (R85), on this hardware. -/
def execSbcAA (s : State) : Host.Outcome State Fault Refusal := execSbcAAOn hardware s

/-- `SBC A,d8`, 0xDE (R87), on any parameters. -/
def execSbcAd8On (c : Config) (d8 : Byte) (s : State) : Host.Outcome State Fault Refusal :=
  behave c (.sbcAd8 d8) (sbc c (.imm d8)) s

/-- `SBC A,d8`, 0xDE (R87), on this hardware. -/
def execSbcAd8 (d8 : Byte) (s : State) : Host.Outcome State Fault Refusal := execSbcAd8On hardware d8 s

end Sys2Proof.Machine
end

