-- ==== Sys2Proof/Machine/Stack.lean ====
section
/-! DEFINITION. CALL, RET, RST, PUSH and POP (43_control_stack.md R97 to R101, R106 to R110). -/

namespace Sys2Proof.Machine

/-- `CALL a16` (R106): push the fall-through address, then jump. -/
def call (c : Config) (a16 : Word) (site : Site) (s : State) : Res Bool :=
  plain ((pushProgramCounter c site s).bind fun _ s => jump a16 s)

/-- `RET` (R107): pop two bytes, at PC, and assign them to PC. -/
def ret (c : Config) (site : Site) (s : State) : Res Bool :=
  plain ((pop c site 2 s).bind fun vs s => jump (leWord vs) s)

/-- `PUSH pp` (R109): the low byte of the pair at SP. -/
def pushPair (c : Config) (p : Pair) (site : Site) (s : State) : Res Bool :=
  plain (push c site (leBytes (s.pair p)) s)

/-- `POP pp` (R110): pop two bytes, at PC, into the pair. -/
def popPair (c : Config) (p : Pair) (site : Site) (s : State) : Res Bool :=
  (pop c site 2 s).bind fun vs s => .ok false (s.setPair p (leWord vs))

/-- `CALL a16`, 0xCD (R106), on any parameters. -/
def execCallA16On (c : Config) (a16 : Word) (s : State) : Host.Outcome State Fault Refusal :=
  behave c (.callA16 a16) (call c a16) s

/-- `CALL a16`, 0xCD (R106), on this hardware. -/
def execCallA16 (a16 : Word) (s : State) : Host.Outcome State Fault Refusal := execCallA16On hardware a16 s

/-- `RET`, 0xC9 (R107), on any parameters. -/
def execRetOn (c : Config) (s : State) : Host.Outcome State Fault Refusal :=
  behave c .ret (ret c) s

/-- `RET`, 0xC9 (R107), on this hardware. -/
def execRet (s : State) : Host.Outcome State Fault Refusal := execRetOn hardware s

/-- `RST 0x00`, 0xC7 (R108), on any parameters. -/
def execRst00On (c : Config) (s : State) : Host.Outcome State Fault Refusal :=
  behave c .rst00 (fun site s => plain (restart c site (rstVector 0) s)) s

/-- `RST 0x00`, 0xC7 (R108), on this hardware. -/
def execRst00 (s : State) : Host.Outcome State Fault Refusal := execRst00On hardware s

/-- `RST 0x08`, 0xCF (R108), on any parameters. -/
def execRst08On (c : Config) (s : State) : Host.Outcome State Fault Refusal :=
  behave c .rst08 (fun site s => plain (restart c site (rstVector 1) s)) s

/-- `RST 0x08`, 0xCF (R108), on this hardware. -/
def execRst08 (s : State) : Host.Outcome State Fault Refusal := execRst08On hardware s

/-- `RST 0x10`, 0xD7 (R108), on any parameters. -/
def execRst10On (c : Config) (s : State) : Host.Outcome State Fault Refusal :=
  behave c .rst10 (fun site s => plain (restart c site (rstVector 2) s)) s

/-- `RST 0x10`, 0xD7 (R108), on this hardware. -/
def execRst10 (s : State) : Host.Outcome State Fault Refusal := execRst10On hardware s

/-- `RST 0x18`, 0xDF (R108), on any parameters. -/
def execRst18On (c : Config) (s : State) : Host.Outcome State Fault Refusal :=
  behave c .rst18 (fun site s => plain (restart c site (rstVector 3) s)) s

/-- `RST 0x18`, 0xDF (R108), on this hardware. -/
def execRst18 (s : State) : Host.Outcome State Fault Refusal := execRst18On hardware s

/-- `RST 0x20`, 0xE7 (R108), on any parameters. -/
def execRst20On (c : Config) (s : State) : Host.Outcome State Fault Refusal :=
  behave c .rst20 (fun site s => plain (restart c site (rstVector 4) s)) s

/-- `RST 0x20`, 0xE7 (R108), on this hardware. -/
def execRst20 (s : State) : Host.Outcome State Fault Refusal := execRst20On hardware s

/-- `RST 0x28`, 0xEF (R108), on any parameters. -/
def execRst28On (c : Config) (s : State) : Host.Outcome State Fault Refusal :=
  behave c .rst28 (fun site s => plain (restart c site (rstVector 5) s)) s

/-- `RST 0x28`, 0xEF (R108), on this hardware. -/
def execRst28 (s : State) : Host.Outcome State Fault Refusal := execRst28On hardware s

/-- `RST 0x30`, 0xF7 (R108), on any parameters. -/
def execRst30On (c : Config) (s : State) : Host.Outcome State Fault Refusal :=
  behave c .rst30 (fun site s => plain (restart c site (rstVector 6) s)) s

/-- `RST 0x30`, 0xF7 (R108), on this hardware. -/
def execRst30 (s : State) : Host.Outcome State Fault Refusal := execRst30On hardware s

/-- `RST 0x38`, 0xFF (R108), on any parameters. -/
def execRst38On (c : Config) (s : State) : Host.Outcome State Fault Refusal :=
  behave c .rst38 (fun site s => plain (restart c site (rstVector 7) s)) s

/-- `RST 0x38`, 0xFF (R108), on this hardware. -/
def execRst38 (s : State) : Host.Outcome State Fault Refusal := execRst38On hardware s

/-- `PUSH BC`, 0xC5 (R109), on any parameters. -/
def execPushBCOn (c : Config) (s : State) : Host.Outcome State Fault Refusal :=
  behave c .pushBC (pushPair c .bc) s

/-- `PUSH BC`, 0xC5 (R109), on this hardware. -/
def execPushBC (s : State) : Host.Outcome State Fault Refusal := execPushBCOn hardware s

/-- `PUSH DE`, 0xD5 (R109), on any parameters. -/
def execPushDEOn (c : Config) (s : State) : Host.Outcome State Fault Refusal :=
  behave c .pushDE (pushPair c .de) s

/-- `PUSH DE`, 0xD5 (R109), on this hardware. -/
def execPushDE (s : State) : Host.Outcome State Fault Refusal := execPushDEOn hardware s

/-- `PUSH HL`, 0xE5 (R109), on any parameters. -/
def execPushHLOn (c : Config) (s : State) : Host.Outcome State Fault Refusal :=
  behave c .pushHL (pushPair c .hl) s

/-- `PUSH HL`, 0xE5 (R109), on this hardware. -/
def execPushHL (s : State) : Host.Outcome State Fault Refusal := execPushHLOn hardware s

/-- `POP BC`, 0xC1 (R110), on any parameters. -/
def execPopBCOn (c : Config) (s : State) : Host.Outcome State Fault Refusal :=
  behave c .popBC (popPair c .bc) s

/-- `POP BC`, 0xC1 (R110), on this hardware. -/
def execPopBC (s : State) : Host.Outcome State Fault Refusal := execPopBCOn hardware s

/-- `POP DE`, 0xD1 (R110), on any parameters. -/
def execPopDEOn (c : Config) (s : State) : Host.Outcome State Fault Refusal :=
  behave c .popDE (popPair c .de) s

/-- `POP DE`, 0xD1 (R110), on this hardware. -/
def execPopDE (s : State) : Host.Outcome State Fault Refusal := execPopDEOn hardware s

/-- `POP HL`, 0xE1 (R110), on any parameters. -/
def execPopHLOn (c : Config) (s : State) : Host.Outcome State Fault Refusal :=
  behave c .popHL (popPair c .hl) s

/-- `POP HL`, 0xE1 (R110), on this hardware. -/
def execPopHL (s : State) : Host.Outcome State Fault Refusal := execPopHLOn hardware s

end Sys2Proof.Machine
end

