-- ==== Sys2Proof/Machine/Xor.lean ====
section
/-! DEFINITION. XOR r / (HL) / d8 (42_alu_flags.md R88 to R91). -/

namespace Sys2Proof.Machine

/-- `xor(src8)` (R88): A and the whole of F are written. -/
def xorWith (c : Config) (src : Src8) (site : Site) (s : State) : Res Bool :=
  (src8 c site src s).bind fun x s => .ok false ((s.withA (s.a ^^^ x)).withF (xorFlags (s.a ^^^ x)))

/-- `XOR B`, 0xA8 (R89), on any parameters. -/
def execXorBOn (c : Config) (s : State) : Host.Outcome State Fault Refusal :=
  behave c .xorB (xorWith c (.reg .b)) s

/-- `XOR B`, 0xA8 (R89), on this hardware. -/
def execXorB (s : State) : Host.Outcome State Fault Refusal := execXorBOn hardware s

/-- `XOR C`, 0xA9 (R89), on any parameters. -/
def execXorCOn (c : Config) (s : State) : Host.Outcome State Fault Refusal :=
  behave c .xorC (xorWith c (.reg .c)) s

/-- `XOR C`, 0xA9 (R89), on this hardware. -/
def execXorC (s : State) : Host.Outcome State Fault Refusal := execXorCOn hardware s

/-- `XOR D`, 0xAA (R89), on any parameters. -/
def execXorDOn (c : Config) (s : State) : Host.Outcome State Fault Refusal :=
  behave c .xorD (xorWith c (.reg .d)) s

/-- `XOR D`, 0xAA (R89), on this hardware. -/
def execXorD (s : State) : Host.Outcome State Fault Refusal := execXorDOn hardware s

/-- `XOR E`, 0xAB (R89), on any parameters. -/
def execXorEOn (c : Config) (s : State) : Host.Outcome State Fault Refusal :=
  behave c .xorE (xorWith c (.reg .e)) s

/-- `XOR E`, 0xAB (R89), on this hardware. -/
def execXorE (s : State) : Host.Outcome State Fault Refusal := execXorEOn hardware s

/-- `XOR H`, 0xAC (R89), on any parameters. -/
def execXorHOn (c : Config) (s : State) : Host.Outcome State Fault Refusal :=
  behave c .xorH (xorWith c (.reg .h)) s

/-- `XOR H`, 0xAC (R89), on this hardware. -/
def execXorH (s : State) : Host.Outcome State Fault Refusal := execXorHOn hardware s

/-- `XOR L`, 0xAD (R89), on any parameters. -/
def execXorLOn (c : Config) (s : State) : Host.Outcome State Fault Refusal :=
  behave c .xorL (xorWith c (.reg .l)) s

/-- `XOR L`, 0xAD (R89), on this hardware. -/
def execXorL (s : State) : Host.Outcome State Fault Refusal := execXorLOn hardware s

/-- `XOR (HL)`, 0xAE (R90), on any parameters. -/
def execXorAtHLOn (c : Config) (s : State) : Host.Outcome State Fault Refusal :=
  behave c .xorAtHL (xorWith c .atHL) s

/-- `XOR (HL)`, 0xAE (R90), on this hardware. -/
def execXorAtHL (s : State) : Host.Outcome State Fault Refusal := execXorAtHLOn hardware s

/-- `XOR A`, 0xAF (R89), on any parameters. -/
def execXorAOn (c : Config) (s : State) : Host.Outcome State Fault Refusal :=
  behave c .xorA (xorWith c (.reg .a)) s

/-- `XOR A`, 0xAF (R89), on this hardware. -/
def execXorA (s : State) : Host.Outcome State Fault Refusal := execXorAOn hardware s

/-- `XOR d8`, 0xEE (R91), on any parameters. -/
def execXord8On (c : Config) (d8 : Byte) (s : State) : Host.Outcome State Fault Refusal :=
  behave c (.xord8 d8) (xorWith c (.imm d8)) s

/-- `XOR d8`, 0xEE (R91), on this hardware. -/
def execXord8 (d8 : Byte) (s : State) : Host.Outcome State Fault Refusal := execXord8On hardware d8 s

end Sys2Proof.Machine
end

