-- ==== Sys2Proof/Machine/Platform.lean ====
section
/-! DEFINITION. The meaning of every instruction on any values of the parameters of 00_scope.md R7, for the platforms of
R7's alternatives; `exec` (Machine/Dispatch.lean) is the same on this hardware's values. -/

namespace Sys2Proof.Machine

/-- Step 7 of 40_execute_loop.md R63 on any parameters. -/
def execOn (c : Config) (i : Instr) (s : State) : Host.Outcome State Fault Refusal :=
  match i with
  | .nop => execNopOn c s
  | .addHLBC => execAddHLBCOn c s
  | .addHLDE => execAddHLDEOn c s
  | .addHLHL => execAddHLHLOn c s
  | .addHLSP => execAddHLSPOn c s
  | .jrZ e8 => execJrZOn c e8 s
  | .jrC e8 => execJrCOn c e8 s
  | .ldAd8 d8 => execLdAd8On c d8 s
  | .sbcAB => execSbcABOn c s
  | .sbcAC => execSbcACOn c s
  | .sbcAD => execSbcADOn c s
  | .sbcAE => execSbcAEOn c s
  | .sbcAH => execSbcAHOn c s
  | .sbcAL => execSbcALOn c s
  | .sbcAAtHL => execSbcAAtHLOn c s
  | .sbcAA => execSbcAAOn c s
  | .sbcAd8 d8 => execSbcAd8On c d8 s
  | .xorB => execXorBOn c s
  | .xorC => execXorCOn c s
  | .xorD => execXorDOn c s
  | .xorE => execXorEOn c s
  | .xorH => execXorHOn c s
  | .xorL => execXorLOn c s
  | .xorAtHL => execXorAtHLOn c s
  | .xorA => execXorAOn c s
  | .xord8 d8 => execXord8On c d8 s
  | .cpB => execCpBOn c s
  | .cpC => execCpCOn c s
  | .cpD => execCpDOn c s
  | .cpE => execCpEOn c s
  | .cpH => execCpHOn c s
  | .cpL => execCpLOn c s
  | .cpAtHL => execCpAtHLOn c s
  | .cpA => execCpAOn c s
  | .cpd8 d8 => execCpd8On c d8 s
  | .jpA16 a16 => execJpA16On c a16 s
  | .callA16 a16 => execCallA16On c a16 s
  | .ret => execRetOn c s
  | .rst00 => execRst00On c s
  | .rst08 => execRst08On c s
  | .rst10 => execRst10On c s
  | .rst18 => execRst18On c s
  | .rst20 => execRst20On c s
  | .rst28 => execRst28On c s
  | .rst30 => execRst30On c s
  | .rst38 => execRst38On c s
  | .pushBC => execPushBCOn c s
  | .pushDE => execPushDEOn c s
  | .pushHL => execPushHLOn c s
  | .popBC => execPopBCOn c s
  | .popDE => execPopDEOn c s
  | .popHL => execPopHLOn c s
  | .unimplemented op => execUnimplementedOn c op s

end Sys2Proof.Machine
end

