-- ==== Sys2Proof/Machine/Cycle.lean ====
section
/-! DEFINITION. The fetch-decode-execute step of 40_execute_loop.md R63 on any parameters and any executor of step 7,
the program load (20_memory.md R46), and placing an instruction where the next step fetches it. -/

namespace Sys2Proof.Machine

/-- Step 4 (R67): the operand bytes of an entry, read at PC, and the instruction they complete. -/
def readOperand (c : Config) (site : Site) (form : Form) (s : State) : Res Instr :=
  match form with
  | .f0 i => .ok i s
  | .f1 mk => (readByte c site s.pc s).bind fun v s => .ok (mk v) s
  | .f2 mk => (readWord c site s.pc s).bind fun v s => .ok (mk v) s

/-- Steps 3 to 6 (R66 to R69) for an entry: advance PC by 1, read the operand, advance PC by the operand length, clear
the override. -/
def prepare (c : Config) (site : Site) (form : Form) (s : State) : Res Instr :=
  (advancePc c site 1 s).bind fun _ s =>
  (readOperand c site form s).bind fun i s =>
  (advancePc c site form.oplen s).bind fun _ s => .ok i (s.withOvr 0)

/-- Steps 1 to 6 (R64 to R69): fetch, decode, and prepare. An entry without a behaviour stops at step 2, before PC
moves and before any operand is read (R65). -/
def fetchDecode (c : Config) (s : State) : Res Instr :=
  let p := s.pc
  (readByte c ⟨none, p⟩ p s).bind fun op s =>
  match dispatchTable op with
  | none => .ok (.unimplemented op) s
  | some e => prepare c ⟨some op, p⟩ e.form s

/-- The cost of step 8 (R71): the base cost where the override is zero, else the override. -/
def stepCost (c : Config) (op : Byte) (ovr : Word) : Word := if ovr = 0 then c.baseCost op else ovr

/-- Step 8 (R71): the clock wraps silently. -/
def account (c : Config) (op : Byte) (s : State) : State := s.withClk (s.clk + stepCost c op s.ovr)

/-- Step 8 is reached only by a step that raised nothing (R117). -/
def accountUnlessFaulted (c : Config) (op : Byte) (s : State) : State :=
  match s.fault with
  | none => account c op s
  | some _ => s

/-- One step (R62, R63) with `ex` as its step 7: enabled only while `FAULT` is none. A step that raises a fault is the
transition to the state with `FAULT` set (10_state.md R24; log 1). -/
def stepWith (c : Config) (ex : Instr → State → Host.Outcome State Fault Refusal) (s : State) :
    Host.Outcome State Fault Refusal :=
  match s.fault with
  | some r => .fault (.stopped r)
  | none =>
    match fetchDecode c s with
    | .raised s' => .next s'
    | .ok i s' =>
      match ex i s' with
      | .next t => .next (accountUnlessFaulted c i.opcode t)
      | .fault r => .fault r
      | .refused r => .refused r

/-- One step on any parameters (00_scope.md R7). -/
def stepOn (c : Config) (s : State) : Host.Outcome State Fault Refusal := stepWith c (execOn c) s

/-- The start of a run (70_reset_and_hazards.md R128): reset, then `load_program(image)` at 0x0000 over `INIT_MEM`
(20_memory.md R46); an image longer than the address space is refused and no step runs. -/
def launch (initMem : Memory) (image : List Byte) : Host.Outcome State Fault Refusal :=
  if image.length ≤ addressSpace then .next { State.reset with mem := writeCells initMem 0 image }
  else .refused (.imageTooLong image.length)

/-- Store bytes at PC and upward, wrapping at the top as the fetch does on this hardware. -/
def placeAt (s : State) : Word → List Byte → State
  | _, [] => s
  | a, v :: vs => placeAt (s.withByte a v) (a + 1) vs

/-- A table word placed where the next step fetches: its bytes at PC, and `FAULT` none, without which no step is enabled
(log 12). -/
def placeTableWord (s : State) (nbits w : Nat) : State :=
  { placeAt s s.pc (tableWordBytes nbits w) with fault := none }

end Sys2Proof.Machine
end

