-- ==== Sys2Proof/Machine/Step.lean ====
section
/-! DEFINITION. The step of this hardware (40_execute_loop.md R63) and where it fetches its next instruction. -/

namespace Sys2Proof.Machine

/-- One step of this hardware: steps 1 to 6, `exec`, and step 8. -/
def step (s : State) : Host.Outcome State Fault Refusal := stepWith hardware exec s

/-- `s` with the instruction of a table word stored where `step` fetches next. -/
def State.withFetchWord (s : State) (nbits w : Nat) : State := placeTableWord s nbits w

end Sys2Proof.Machine
end

