-- ==== Sys2Proof/Safety.lean ====
section
/-! DEFINITION. What claims are stated in: the invariant of the state, runs on any parameters, and the cost of a run. -/

namespace Sys2Proof.Machine

/-- A fault record as 60_exceptions.md R113 shapes it: which of its fields each kind records. -/
def FaultRecord.legal (r : FaultRecord) : Bool :=
  match r.kind with
  | .unimplementedOpcode =>
    (match r.opcode with
     | some op => !admittedOpcodes.contains op
     | none => false) && r.address.isNone && r.step.isNone
  | .memoryOutOfBounds => r.address.isSome && r.step.isNone
  | .addressOverflow => r.opcode.isSome && r.address.isSome && r.step.isSome

/-- The invariant every step keeps: memory is canonical (20_memory.md R37, log 3), the unused bits of `F` are zero
(10_state.md R19, 42_alu_flags.md R80), and `FAULT` holds none or a record of R113's shape. -/
abbrev State.Inv (s : State) : Prop :=
  s.mem.wf = true ∧ s.f &&& 0x0F = 0 ∧ s.fault.all FaultRecord.legal = true

/-- The machine on any parameters, for runs of it (00_scope.md R7). -/
def coreOn (c : Config) : Host.Core where
  State := State
  Fault := Fault
  Refusal := Refusal
  step := stepOn c
  reset := State.reset

/-- The outcome of up to `n` steps from `s`, on any parameters (40_execute_loop.md R76). -/
def runOn (c : Config) (n : Nat) (s : State) : Host.Outcome State Fault Refusal := (coreOn c).run n s

/-- The sum of the costs of the first `n` steps from `s` (40_execute_loop.md R74): each step's cost by its opcode, the byte
at PC when it starts, and the override it leaves. -/
def totalCost (c : Config) : Nat → State → Word
  | 0, _ => 0
  | n + 1, s =>
    match stepOn c s with
    | .next t => stepCost c (s.byteAt s.pc) t.ovr + totalCost c n t
    | _ => 0

/-- Two states that differ in the clock and the override at most (70_reset_and_hazards.md R138). -/
def SameButTiming (s t : State) : Prop := { s with clk := t.clk, ovr := t.ovr } = t

/-- Two sets of parameters that differ in the costs at most (R138). -/
def SameButCosts (c d : Config) : Prop :=
  c.overflowPolicy = d.overflowPolicy ∧ c.cpUnfired = d.cpUnfired ∧ c.memValid = d.memValid

/-- Outcomes that agree but for the clock and the override (R138). -/
def OutcomesSameButTiming : Host.Outcome State Fault Refusal → Host.Outcome State Fault Refusal → Prop
  | .next s, .next t => SameButTiming s t
  | .fault r, .fault q => r = q
  | .refused r, .refused q => r = q
  | .next _, .fault _ => False
  | .next _, .refused _ => False
  | .fault _, .next _ => False
  | .fault _, .refused _ => False
  | .refused _, .next _ => False
  | .refused _, .fault _ => False

/-! ### The forms of each family, for statements about all of them: each with its operand in state `s`, written from the
registers and memory themselves. -/

/-- The addend of each form of the 16-bit add, as a number (42_alu_flags.md R83; 10_state.md R15). -/
def addForms (s : State) : List (Instr × Nat) :=
  [(.addHLBC, s.c.toNat * 256 + s.b.toNat), (.addHLDE, s.e.toNat * 256 + s.d.toNat),
   (.addHLHL, s.l.toNat * 256 + s.h.toNat), (.addHLSP, s.sp.toNat)]

/-- The byte at `L ++ H` (42_alu_flags.md R81). -/
def State.atHL (s : State) : Byte := s.byteAt (BitVec.ofNat 16 (s.l.toNat * 256 + s.h.toNat))

/-- The operand of each form of subtract-with-borrow (R85 to R87). -/
def sbcForms (s : State) (d8 : Byte) : List (Instr × Byte) :=
  [(.sbcAB, s.b), (.sbcAC, s.c), (.sbcAD, s.d), (.sbcAE, s.e), (.sbcAH, s.h), (.sbcAL, s.l), (.sbcAAtHL, s.atHL),
   (.sbcAA, s.a), (.sbcAd8 d8, d8)]

/-- The operand of each form of exclusive-or (R89 to R91). -/
def xorForms (s : State) (d8 : Byte) : List (Instr × Byte) :=
  [(.xorB, s.b), (.xorC, s.c), (.xorD, s.d), (.xorE, s.e), (.xorH, s.h), (.xorL, s.l), (.xorAtHL, s.atHL),
   (.xorA, s.a), (.xord8 d8, d8)]

/-- The operand of each form of compare (R93 to R95). -/
def cpForms (s : State) (d8 : Byte) : List (Instr × Byte) :=
  [(.cpB, s.b), (.cpC, s.c), (.cpD, s.d), (.cpE, s.e), (.cpH, s.h), (.cpL, s.l), (.cpAtHL, s.atHL),
   (.cpA, s.a), (.cpd8 d8, d8)]

/-- The vector of each restart (30_encoding.md R53). -/
def rstForms : List (Instr × Word) :=
  [(.rst00, 0x0000), (.rst08, 0x0008), (.rst10, 0x0010), (.rst18, 0x0018), (.rst20, 0x0020), (.rst28, 0x0028),
   (.rst30, 0x0030), (.rst38, 0x0038)]

/-- The two registers of each pair push and pair pop: first-named, second-named (43_control_stack.md R109, R110). -/
def pushForms : List (Instr × Reg × Reg) := [(.pushBC, .b, .c), (.pushDE, .d, .e), (.pushHL, .h, .l)]

/-- See `pushForms`. -/
def popForms : List (Instr × Reg × Reg) := [(.popBC, .b, .c), (.popDE, .d, .e), (.popHL, .h, .l)]

/-- The forms that store two bytes at SP, with the word stored, as a number (R106, R108, R109). -/
def storeForms (s : State) (a16 : Word) : List (Instr × Nat) :=
  (.callA16 a16, s.pc.toNat) :: rstForms.map (fun p => (p.1, s.pc.toNat)) ++
    pushForms.map (fun p => (p.1, (s.reg p.2.2).toNat * 256 + (s.reg p.2.1).toNat))

/-- `taken` of 40_execute_loop.md R70: a relative jump whose whole flag byte matches (43_control_stack.md R102 to R104). -/
def branchTaken (i : Instr) (s : State) : Bool := (i.opcode == 0x28 && s.f == 0x80) || (i.opcode == 0x38 && s.f == 0x10)

/-- Every register, SP, the clock, `FAULT` and every byte of memory are as before. -/
def KeepsAllButFlagsAndPc (s t : State) : Prop :=
  (∀ r, t.reg r = s.reg r) ∧ t.sp = s.sp ∧ t.clk = s.clk ∧ t.fault = s.fault ∧ ∀ x, t.byteAt x = s.byteAt x

end Sys2Proof.Machine
end

