-- ==== Sys2Proof/Certificates/Slice0/Obligations.lean ====
section
/-! DEFINITION. The statements for the provers, each from the numbered rules of spec/ its docstring names. `s` is a state
before, `t` a state after. In a statement about `exec`, PC is the fall-through address (40_execute_loop.md R68). -/

open Sys2Proof Sys2Proof.Machine

/-! ### Encoding -/

/-- Words written out from 30_encoding.md R48, R50 to R54 and R56 decode to their instructions. Tier F byte values are the
spec's own supply (log 10). That the byte 0xCB, which has no behaviour (R57, R58), decodes to a one-byte instruction and leaves
0x37 over is the model's choice (log 17). -/
def Obligations.FamilyWordsDecode : Prop :=
  decode [0b00000000] = .ok (.nop, []) ∧ decode [0b00111110, 0x05] = .ok (.ldAd8 0x05, []) ∧
  decode [0b00111001] = .ok (.addHLSP, []) ∧ decode [0b10011110] = .ok (.sbcAAtHL, []) ∧
  decode [0b10101111] = .ok (.xorA, []) ∧ decode [0b10111011] = .ok (.cpE, []) ∧
  decode [0b00101000, 0xFE] = .ok (.jrZ 0xFE, []) ∧ decode [0b00111000, 0x10] = .ok (.jrC 0x10, []) ∧
  decode [0xC3, 0x34, 0x12] = .ok (.jpA16 0x1234, []) ∧ decode [0xCD, 0x34, 0x12] = .ok (.callA16 0x1234, []) ∧
  decode [0xC9, 0x77] = .ok (.ret, [0x77]) ∧ decode [0b11101111] = .ok (.rst28, []) ∧
  decode [0b11010101] = .ok (.pushDE, []) ∧ decode [0b11100001] = .ok (.popHL, []) ∧
  decode [0xCB, 0x37] = .ok (.unimplemented 0xCB, [0x37])

/-- R47 to R49, R60: decoding what the encoder writes gives the instruction back, every operand at every value, whatever
bytes follow. -/
def Obligations.DecodeInvertsEncode : Prop :=
  ∀ (i : Instr) (rest : List Byte), i.wellFormed = true → decode (i.encode ++ rest) = .ok (i, rest)

/-- R47 to R49: the decoder gives only well-formed instructions, and drops no bit of the bytes it reads. -/
def Obligations.EncodeInvertsDecode : Prop :=
  ∀ (bs : List Byte) (i : Instr) (rest : List Byte),
    decode bs = .ok (i, rest) → i.wellFormed = true ∧ i.encode ++ rest = bs

/-- R60: the table is defined for every opcode byte, so any three bytes decode, the opcode the first of them. That a byte
without a behaviour decodes to an instruction at all, its fault taken by that instruction, is the model's choice (log 17). -/
def Obligations.ThreeBytesAlwaysDecode : Prop :=
  ∀ x y z : Byte, ∃ i rest, decode [x, y, z] = .ok (i, rest) ∧ i.opcode = x

/-- R56, R57, R59: the 256 bytes split into 52 with a behaviour and 204 without, the prefix byte 0xCB among those (R58). -/
def Obligations.OpcodeSpaceSplits52And204 : Prop :=
  ((List.range 256).filter fun n => (dispatchTable (BitVec.ofNat 8 n)).isSome).length = 52 ∧
  ((List.range 256).filter fun n => (dispatchTable (BitVec.ofNat 8 n)).isNone).length = 204 ∧
  dispatchTable 0xCB = none

/-! ### The step -/

/-- R63 to R71: a step runs the instruction the bytes at PC decode to. An admitted one runs with PC at the fall-through
address and OVR cleared, and its cost is added unless it raised a fault; an opcode without a behaviour runs where it
stands. -/
def Obligations.StepRunsDecodedInstruction : Prop :=
  ∀ (s : State) (i : Instr) (rest : List Byte), s.fault = none →
    decode [s.byteAt s.pc, s.byteAt (s.pc + 1), s.byteAt (s.pc + 2)] = .ok (i, rest) →
    ((∀ op, i ≠ .unimplemented op) →
      step s =
        match exec i { s with pc := s.pc + BitVec.ofNat 16 i.length, ovr := 0 } with
        | .next t =>
          .next (match t.fault with
            | none => { t with clk := t.clk + (if t.ovr = 0 then hardware.baseCost i.opcode else t.ovr) }
            | some _ => t)
        | .fault r => .fault r
        | .refused r => .refused r) ∧
    (∀ op, i = .unimplemented op → step s = exec i s)

/-- R24, R62, R118: no step is enabled in a state with a fault, on any parameters. -/
def Obligations.FaultedStateTakesNoStep : Prop :=
  ∀ (c : Config) (s : State) (r : FaultRecord), s.fault = some r →
    stepOn c s = .fault (.stopped r) ∧ step s = .fault (.stopped r)

/-- R7: `exec`, the instructions on this hardware, is the platform executor on this hardware's parameters. -/
def Obligations.ExecIsExecOnHardware : Prop := ∀ (i : Instr) (s : State), exec i s = execOn hardware i s

/-- R68 and the source's property with the scope of 90_conflicts.md C2: an admitted opcode without operand that writes no PC
leaves PC one further. -/
def Obligations.PlainOneByteStepAdvancesPcByOne : Prop :=
  ∀ (s t : State) (e : Entry), s.fault = none → dispatchTable (s.byteAt s.pc) = some e → e.form.oplen = 0 →
    s.byteAt s.pc ∉ [0xC9, 0xC1, 0xD1, 0xE1, 0xC7, 0xCF, 0xD7, 0xDF, 0xE7, 0xEF, 0xF7, 0xFF] →
    step s = .next t → t.pc = s.pc + 1

/-- R71, R117: a step that completes adds the base cost where it left the override at zero, else the override, mod 2^16; a
step that faults adds nothing. On any parameters. The clause on a faulting step rests on the spec's decision D23 (log 19),
its next state on log 1. -/
def Obligations.CompletedStepAddsItsCost : Prop :=
  ∀ (c : Config) (s t : State), stepOn c s = .next t →
    (t.fault = none → t.clk = s.clk + (if t.ovr = 0 then c.baseCost (s.byteAt s.pc) else t.ovr)) ∧
    (t.fault ≠ none → t.clk = s.clk)

/-- R74: over any run of completed steps the clock is the sum of the steps' costs, mod 2^16, on any parameters. -/
def Obligations.ClockIsSumOfStepCosts : Prop :=
  ∀ (c : Config) (n : Nat) (s t : State), runOn c n s = .next t → t.fault = none → t.clk = s.clk + totalCost c n s

/-- R138: from states that differ in the clock and the override at most, on parameters that differ in the costs at most,
runs of any length end alike but for the clock and the override. -/
def Obligations.CostsChangeOnlyTheClock : Prop :=
  ∀ (c d : Config) (n : Nat) (s t : State), SameButCosts c d → SameButTiming s t →
    OutcomesSameButTiming (runOn c n s) (runOn d n t)

/-! ### Reset, launch, invariants -/

/-- R29 (and R46): after the launch every register, the flags, the clock, the override and `FAULT` are zero or none, and
memory holds the image from 0x0000 upward and `INIT_MEM` elsewhere. The values of the clock, the override and `FAULT` are the
spec's decisions D17 and D23 (log 15); that memory is canonical, before and after, is the model's form (log 3). -/
def Obligations.LaunchedStateHoldsResetValues : Prop :=
  ∀ (initMem : Memory) (image : List Byte), initMem.wf = true → image.length ≤ 65536 →
    ∃ t, launch initMem image = .next t ∧ (∀ r, t.reg r = 0) ∧ t.sp = 0 ∧ t.pc = 0 ∧ t.f = 0 ∧ t.clk = 0 ∧ t.ovr = 0 ∧
      t.fault = none ∧ t.mem.wf = true ∧
      ∀ a : Word, t.byteAt a =
        if a.toNat < image.length then image.getD a.toNat 0 else readCell initMem a.toNat

/-- R46: an image longer than the address space is refused at load. The refusal's name is the model's. -/
def Obligations.OversizedImageIsRefused : Prop :=
  ∀ (initMem : Memory) (image : List Byte), image.length > 65536 →
    launch initMem image = .refused (.imageTooLong image.length)

/-- R128, R129: the reset state. What its memory reads as, 0x00 everywhere, is the model's choice (log 3). -/
def Obligations.ResetStateIsAllZero : Prop :=
  (∀ r, State.reset.reg r = 0) ∧ State.reset.sp = 0 ∧ State.reset.pc = 0 ∧ State.reset.f = 0 ∧ State.reset.clk = 0 ∧
  State.reset.ovr = 0 ∧ State.reset.fault = none ∧ State.reset.mem = []

/-- The invariant holds after reset (R29). -/
def Obligations.ResetMeetsTheInvariant : Prop := State.reset.Inv

/-- R80, R113: every step keeps memory canonical, the unused flag bits zero, and `FAULT` none or a legal record. The canonical form
of memory is the model's (log 3), and so is what a legal record leaves absent, an `UnimplementedOpcode` record's address and step
among it (log 2). -/
def Obligations.StepKeepsTheInvariant : Prop :=
  ∀ s t : State, s.Inv → step s = .next t → t.Inv

/-- R80: bits 3:0 of `F` are 0 in every state a run reaches, whatever the parameters, the image and `INIT_MEM`. -/
def Obligations.UnusedFlagBitsStayZeroInEveryRun : Prop :=
  ∀ (c : Config) (initMem : Memory) (image : List Byte) (s t : State) (n : Nat),
    launch initMem image = .next s → runOn c n s = .next t → t.f &&& 0x0F = 0

/-- R17, R111: SP changes only by the two-byte pushes of CALL, RST and PUSH, down by 2. -/
def Obligations.StackPointerOnlyFallsByPushes : Prop :=
  ∀ s t : State, s.fault = none → step s = .next t →
    t.sp = if s.byteAt s.pc ∈ [0xCD, 0xC7, 0xCF, 0xD7, 0xDF, 0xE7, 0xEF, 0xF7, 0xFF, 0xC5, 0xD5, 0xE5] then s.sp - 2
      else s.sp

/-! ### Faults -/

/-- R114: an opcode byte outside the admitted set faults at decode: only `FAULT` changes, and its record holds the opcode and the
PC it stands at. On any parameters, so at 0xFFFF under `Fault` too (R119). Where in the step it aborts and which PC it reports are
the spec's decision D22, what the faulting step leaves is its decision D23 (log 19, log 1), and the record's other fields are the
model's shape (log 2). -/
def Obligations.UnimplementedOpcodeFaultsAtDecode : Prop :=
  ∀ (c : Config) (s : State), s.fault = none → c.memValid s.pc = true → s.byteAt s.pc ∉ admittedOpcodes →
    ∃ r : FaultRecord, stepOn c s = .next { s with fault := some r } ∧ r.kind = .unimplementedOpcode ∧
      r.opcode = some (s.byteAt s.pc) ∧ r.pc = s.pc

/-- R57, R114: the instruction of an opcode without a behaviour completes by taking its fault. The record has the
model's shape (log 2); that such a byte is an instruction at all is the model's (log 17). -/
def Obligations.UnimplementedInstructionRaisesItsFault : Prop :=
  ∀ (op : Byte) (s : State),
    exec (.unimplemented op) s =
      .next { s with fault := some ⟨.unimplementedOpcode, some op, s.pc, none, none⟩ }

/-- R64, R115, R119: a fetch at an invalid address faults and nothing else happens, whatever byte stands there. The record has
the model's shape (log 2), and what a faulting step leaves is log 19. -/
def Obligations.FetchOutOfBoundsFaults : Prop :=
  ∀ (c : Config) (s : State), s.fault = none → c.memValid s.pc = false →
    stepOn c s = .next { s with fault := some ⟨.memoryOutOfBounds, none, s.pc, some s.pc, none⟩ }

/-- R66, R116, R119: under `Fault`, an admitted opcode at 0xFFFF overflows in step 3, before any operand is read. The record has
the model's shape (log 2), and what a faulting step leaves is log 19. -/
def Obligations.OpcodeAtTopOverflowsUnderFault : Prop :=
  ∀ (c : Config) (s : State), s.fault = none → c.overflowPolicy = .fault → c.memValid 0xFFFF = true → s.pc = 0xFFFF →
    s.byteAt 0xFFFF ∈ admittedOpcodes →
    stepOn c s =
      .next { s with fault := some ⟨.addressOverflow, some (s.byteAt 0xFFFF), 0xFFFF, some 0xFFFF, some 1⟩ }

/-- R67, R78, R115, R117, R119: an operand byte at an invalid address faults after PC moved past the opcode, and nothing else
happened; so too with the opcode at 0xFFFF under `Wrap`, where the operand stands at 0x0000. For the one-byte operands and the
first byte of the two-byte ones. The record has the model's shape (log 2), and what a faulting step leaves is log 19. -/
def Obligations.OperandOutOfBoundsFaults : Prop :=
  ∀ (c : Config) (s : State) (a : Word), s.fault = none → c.memValid s.pc = true → seq16 c s.pc 1 = some a →
    c.memValid a = false → s.byteAt s.pc ∈ [0x3E, 0xDE, 0xEE, 0xFE, 0x28, 0x38, 0xC3, 0xCD] →
    stepOn c s =
      .next { s with
        pc := a
        fault := some ⟨.memoryOutOfBounds, some (s.byteAt s.pc), s.pc, some a, none⟩ }

/-- R86, R90, R94, R115: the memory operand at an invalid `L ++ H` faults with A and F as they were, for `SBC A,(HL)`
too, whose result is discarded. The record has the model's shape (log 2), its opcode address taken as PC - length (log 11), and
what a faulting step leaves is log 19. -/
def Obligations.MemoryOperandOutOfBoundsFaults : Prop :=
  ∀ (c : Config) (s : State), c.memValid (BitVec.ofNat 16 (s.l.toNat * 256 + s.h.toNat)) = false →
    ∀ i ∈ [Instr.sbcAAtHL, .xorAtHL, .cpAtHL],
      execOn c i s =
        .next { s with
          fault := some ⟨.memoryOutOfBounds, some i.opcode, s.pc - 1,
            some (BitVec.ofNat 16 (s.l.toNat * 256 + s.h.toNat)), none⟩ }

/-- R97, R106, R108, R109: under `Fault` a push with SP < 2 does both writes and then overflows on the decrement; SP and PC
stay. The record has the model's shape (log 2, log 11), and what a faulting step leaves is log 19. -/
def Obligations.PushUnderFaultWritesThenOverflows : Prop :=
  ∀ (c : Config) (s : State) (a16 : Word), c.overflowPolicy = .fault → (∀ x, c.memValid x = true) →
    s.mem.wf = true → s.sp.toNat < 2 → ∀ p ∈ storeForms s a16,
      ∃ t, execOn c p.1 s = .next t ∧ t.sp = s.sp ∧ t.pc = s.pc ∧
        (t.byteAt s.sp).toNat = p.2 % 256 ∧ (t.byteAt (s.sp + 1)).toNat = p.2 / 256 ∧
        t.fault = some ⟨.addressOverflow, some p.1.opcode, s.pc - BitVec.ofNat 16 p.1.length, some s.sp, some (-2)⟩

/-- R107, R110: under `Fault` a pop at 0xFFFF overflows on the second read address and one at 0xFFFE on the PC advance;
PC, SP and the pair stay. The record has the model's shape (log 2, log 11), and what a faulting step leaves is log 19. -/
def Obligations.PopUnderFaultOverflows : Prop :=
  ∀ (c : Config) (s : State), c.overflowPolicy = .fault → (∀ x, c.memValid x = true) → s.pc.toNat ≥ 0xFFFE →
    ∀ i ∈ [Instr.ret, .popBC, .popDE, .popHL],
      execOn c i s =
        .next { s with
          fault := some ⟨.addressOverflow, some i.opcode, s.pc - 1, some s.pc,
            some (if s.pc.toNat = 0xFFFF then 1 else 2)⟩ }

/-- R102 to R104, R116: under `Fault` a relative jump that is taken past 0xFFFF overflows; PC stays. The record has the
model's shape (log 2, log 11), and what a faulting step leaves is log 19. -/
def Obligations.TakenJumpPastTopOverflowsUnderFault : Prop :=
  ∀ (c : Config) (s : State) (e8 : Byte), c.overflowPolicy = .fault → s.pc.toNat + e8.toNat > 0xFFFF →
    ∀ p ∈ [(Instr.jrZ e8, (0x80 : Byte)), (.jrC e8, 0x10)], s.f = p.2 →
      execOn c p.1 s =
        .next { s with
          fault := some ⟨.addressOverflow, some p.1.opcode, s.pc - 2, some s.pc, some (e8.toNat : Int)⟩ }

/-- R115, R116: on this hardware `MemoryOutOfBounds` and `AddressOverflow` are never raised: a step that raises a fault
raised `UnimplementedOpcode`, and changed nothing but `FAULT`. -/
def Obligations.HardwareRaisesOnlyUnimplementedOpcode : Prop :=
  ∀ (s t : State) (r : FaultRecord), s.fault = none → step s = .next t → t.fault = some r →
    r.kind = .unimplementedOpcode ∧ t = { s with fault := some r }

/-! ### Sequencer, memory, registers, flags -/

/-- R10: `seq16` is exact in range; outside it wraps mod 2^16 under `Wrap` and gives no value under `Fault`. -/
def Obligations.SequencerArithmetic : Prop :=
  ∀ (c : Config) (x : Word) (k : Int),
    (0 ≤ (x.toNat : Int) + k ∧ (x.toNat : Int) + k ≤ 0xFFFF →
      ∃ y, seq16 c x k = some y ∧ (y.toNat : Int) = x.toNat + k) ∧
    (c.overflowPolicy = .wrap → ∃ y, seq16 c x k = some y ∧ (y.toNat : Int) = (x.toNat + k) % 65536) ∧
    (c.overflowPolicy = .fault → ¬(0 ≤ (x.toNat : Int) + k ∧ (x.toNat : Int) + k ≤ 0xFFFF) → seq16 c x k = none)

/-- R37, R38: a read after a write gives the byte written, every other address reads as before, and nothing but memory
changes. -/
def Obligations.ReadAfterWrite : Prop :=
  ∀ (c : Config) (site : Site) (s : State) (a : Word) (v : Byte), s.mem.wf = true → c.memValid a = true →
    ∃ t, writeByte c site a v s = .ok () t ∧ readByte c site a t = .ok v t ∧ (∀ b, b ≠ a → t.byteAt b = s.byteAt b) ∧
      t.mem.wf = true ∧ t = { s with mem := t.mem }

/-- R33, R34: a two-byte access at `a` touches `a` and then `seq16(a, 1)`, the low byte at `a`; where that overflows it raises
after the access at `a`; where only the second address is invalid the first byte is written. -/
def Obligations.WordAccessOrder : Prop :=
  ∀ (c : Config) (site : Site) (s : State) (a v : Word), c.memValid a = true →
    (∀ b, seq16 c a 1 = some b → c.memValid b = true →
      readWord c site a s = .ok (BitVec.ofNat 16 ((s.byteAt b).toNat * 256 + (s.byteAt a).toNat)) s ∧
      writeWord c site a v s =
        .ok () ((s.withByte a (BitVec.ofNat 8 v.toNat)).withByte b (BitVec.ofNat 8 (v.toNat / 256)))) ∧
    (∀ b, seq16 c a 1 = some b → c.memValid b = false →
      writeWord c site a v s = .raised ((s.withByte a (BitVec.ofNat 8 v.toNat)).raise (site.outOfBounds b))) ∧
    (seq16 c a 1 = none →
      readWord c site a s = .raised (s.raise (site.overflow a 1)) ∧
      writeWord c site a v s = .raised ((s.withByte a (BitVec.ofNat 8 v.toNat)).raise (site.overflow a 1)))

/-- R15: the first-named register of a pair is its low byte, for reads and for `setpair`, which writes no other register. -/
def Obligations.PairByteOrder : Prop :=
  ∀ (s : State) (v : Word),
    (s.pair .bc).toNat = s.c.toNat * 256 + s.b.toNat ∧ (s.pair .de).toNat = s.e.toNat * 256 + s.d.toNat ∧
    (s.pair .hl).toNat = s.l.toNat * 256 + s.h.toNat ∧
    ∀ p ∈ [(Pair.bc, Reg.b, Reg.c), (.de, .d, .e), (.hl, .h, .l)],
      ((s.setPair p.1 v).reg p.2.1).toNat = v.toNat % 256 ∧ ((s.setPair p.1 v).reg p.2.2).toNat = v.toNat / 256 ∧
      (∀ r, r ≠ p.2.1 → r ≠ p.2.2 → (s.setPair p.1 v).reg r = s.reg r) ∧ (s.setPair p.1 v).f = s.f

/-- R79: `setflag` sets the bit if true, clears it if false, touches no other bit, and is idempotent. -/
def Obligations.SetFlagWritesOneBit : Prop :=
  ∀ (x : Flag) (v : Bool) (f : Byte),
    (setFlag x v f).getLsbD x.pos = v ∧ (∀ k, k ≠ x.pos → (setFlag x v f).getLsbD k = f.getLsbD k) ∧
    setFlag x v (setFlag x v f) = setFlag x v f

/-! ### Results -/

/-- R73, R70, R121: every well-formed instruction answers a next state from every state; it leaves the clock alone, and
`FAULT` too unless it has no behaviour. -/
def Obligations.EveryInstructionCompletes : Prop :=
  ∀ (i : Instr) (s : State), i.wellFormed = true →
    ∃ t, exec i s = .next t ∧ t.clk = s.clk ∧ ((∀ op, i ≠ .unimplemented op) → t.fault = s.fault)

/-- R23, R70: an admitted behaviour leaves OVR at `OVERRIDE(op, taken)` where that is not zero, else as it found it; `taken`
only for a relative jump that took its branch. -/
def Obligations.BehaviourLeavesItsOverride : Prop :=
  ∀ (i : Instr) (s t : State), (∀ op, i ≠ .unimplemented op) → exec i s = .next t →
    t.ovr =
      if hardware.override i.opcode (branchTaken i s) = 0 then s.ovr
      else hardware.override i.opcode (branchTaken i s)

/-- R77: a step at a NOP, from any state: all registers, flags and memory as before, PC one further, the clock on by the
base cost. That NOP's OVERRIDE is zero is read from R77 (log 5). -/
def Obligations.NopStepChangesOnlyPcAndClock : Prop :=
  ∀ s : State, s.fault = none → s.byteAt s.pc = 0x00 →
    step s = .next { s with pc := s.pc + 1, ovr := 0, clk := s.clk + hardware.baseCost 0x00 }

/-- R77, R78: `NOP` writes nothing; `LD A,d8` writes A alone, and no flag. That their OVERRIDE is zero is read from R77 and R78
(log 5). -/
def Obligations.NopAndLoadResult : Prop :=
  ∀ (s : State) (d8 : Byte), exec .nop s = .next s ∧ exec (.ldAd8 d8) s = .next { s with a := d8 }

/-- R82, R83: the 16-bit add: the sum mod 2^16 in HL, CARRY from the exact sum, HALFCARRY from the low nibbles of the
truncated result and the addend, NEGATIVE clear, ZERO kept. -/
def Obligations.SixteenBitAddResult : Prop :=
  ∀ s : State, ∀ p ∈ addForms s,
    ∃ t, exec p.1 s = .next t ∧
      t.l.toNat * 256 + t.h.toNat = (s.l.toNat * 256 + s.h.toNat + p.2) % 65536 ∧
      (getFlag .carry t.f = true ↔ s.l.toNat * 256 + s.h.toNat + p.2 > 0xFFFF) ∧
      (getFlag .halfCarry t.f = true ↔ (s.l.toNat * 256 + s.h.toNat + p.2) % 65536 % 16 + p.2 % 16 > 0xF) ∧
      getFlag .negative t.f = false ∧ getFlag .zero t.f = getFlag .zero s.f

/-- R84 to R87: subtract-with-borrow: four independent flags, no borrow input, A not written. -/
def Obligations.SubtractWithBorrowResult : Prop :=
  ∀ (s : State) (d8 : Byte), ∀ p ∈ sbcForms s d8,
    ∃ t, exec p.1 s = .next t ∧ t.a = s.a ∧ getFlag .negative t.f = true ∧
      (getFlag .zero t.f = true ↔ p.2 = s.a) ∧ (getFlag .carry t.f = true ↔ p.2.toNat > s.a.toNat) ∧
      (getFlag .halfCarry t.f = true ↔ p.2.toNat % 16 > s.a.toNat % 16)

/-- R88 to R91: exclusive-or into A; `F` is 0x80 when the result is 0, else 0x00. -/
def Obligations.ExclusiveOrResult : Prop :=
  ∀ (s : State) (d8 : Byte), ∀ p ∈ xorForms s d8,
    ∃ t, exec p.1 s = .next t ∧ (∀ k, t.a.getLsbD k = (s.a.getLsbD k ^^ p.2.getLsbD k)) ∧
      t.f = if t.a = 0 then 0x80 else 0x00

/-- R92 to R95 under `Preserve`: the chain sets ZERO if equal, else CARRY if A is less, else HALFCARRY if the operand's low
nibble is greater; what did not fire keeps its value; NEGATIVE set; A not written. -/
def Obligations.CompareResult : Prop :=
  ∀ (s : State) (d8 : Byte), ∀ p ∈ cpForms s d8,
    ∃ t, exec p.1 s = .next t ∧ t.a = s.a ∧ getFlag .negative t.f = true ∧
      (getFlag .zero t.f = true ↔ p.2 = s.a ∨ getFlag .zero s.f = true) ∧
      (getFlag .carry t.f = true ↔ s.a.toNat < p.2.toNat ∨ getFlag .carry s.f = true) ∧
      (getFlag .halfCarry t.f = true ↔
        (p.2.toNat < s.a.toNat ∧ p.2.toNat % 16 > s.a.toNat % 16) ∨ getFlag .halfCarry s.f = true)

/-- R92 under `Clear`: the same chain from cleared flags, so at most one of ZERO, CARRY and HALFCARRY is set. -/
def Obligations.CompareUnderClearResult : Prop :=
  ∀ (c : Config) (s : State) (d8 : Byte), c.cpUnfired = .clear → (∀ x, c.memValid x = true) → ∀ p ∈ cpForms s d8,
    ∃ t, execOn c p.1 s = .next t ∧ t.a = s.a ∧ getFlag .negative t.f = true ∧
      (getFlag .zero t.f = true ↔ p.2 = s.a) ∧ (getFlag .carry t.f = true ↔ s.a.toNat < p.2.toNat) ∧
      (getFlag .halfCarry t.f = true ↔ p.2.toNat < s.a.toNat ∧ p.2.toNat % 16 > s.a.toNat % 16)

/-- R95: right after a compare, whatever the flags were, a relative jump is not taken: PC and OVR stay. With offset 0 a taken
jump would leave the same PC (R103). -/
def Obligations.NoRelativeJumpRightAfterCompare : Prop :=
  ∀ (s t : State) (d8 e8 : Byte), ∀ p ∈ cpForms s d8, exec p.1 s = .next t →
    ∀ j ∈ [Instr.jrZ e8, .jrC e8], ∃ u, exec j t = .next u ∧ u.pc = t.pc ∧ u.ovr = t.ovr

/-- R102 to R104: the relative jumps: taken iff the whole flag byte equals the pattern; the offset is added unsigned to the
fall-through address; not taken, PC and OVR stay. -/
def Obligations.RelativeJumpResult : Prop :=
  ∀ (s : State) (e8 : Byte), ∀ p ∈ [(Instr.jrZ e8, (0x80 : Byte)), (.jrC e8, 0x10)],
    ∃ t, exec p.1 s = .next t ∧
      (s.f = p.2 → t.pc.toNat = (s.pc.toNat + e8.toNat) % 65536) ∧
      (s.f ≠ p.2 → t.pc = s.pc ∧ t.ovr = s.ovr)

/-- R100, R105: `JP a16` assigns PC and nothing else. That its OVERRIDE is zero is read from R105 (log 5). -/
def Obligations.AbsoluteJumpResult : Prop :=
  ∀ (s : State) (a16 : Word), exec (.jpA16 a16) s = .next { s with pc := a16 }

/-- R97, R99, R101, R106, R108: CALL and RST store the fall-through address at SP, low byte first, move SP down by 2, and go
to the target. -/
def Obligations.CallAndRestartResult : Prop :=
  ∀ (s : State) (a16 : Word), s.mem.wf = true → ∀ p ∈ (Instr.callA16 a16, a16) :: rstForms,
    ∃ t, exec p.1 s = .next t ∧ (t.byteAt s.sp).toNat = s.pc.toNat % 256 ∧
      (t.byteAt (s.sp + 1)).toNat = s.pc.toNat / 256 ∧ t.sp = s.sp - 2 ∧ t.pc = p.2

/-- R97, R109: PUSH stores the first-named register at SP and the second-named above it, and moves SP down by 2. -/
def Obligations.PushPairResult : Prop :=
  ∀ s : State, s.mem.wf = true → ∀ p ∈ pushForms,
    ∃ t, exec p.1 s = .next t ∧ t.byteAt s.sp = s.reg p.2.1 ∧ t.byteAt (s.sp + 1) = s.reg p.2.2 ∧ t.sp = s.sp - 2 ∧
      t.pc = s.pc

/-- R98, R107: RET takes its target from the two bytes at the fall-through address, low byte first; SP stays. -/
def Obligations.ReturnResult : Prop :=
  ∀ s : State, ∃ t, exec .ret s = .next t ∧
    t.pc.toNat = (s.byteAt (s.pc + 1)).toNat * 256 + (s.byteAt s.pc).toNat ∧ t.sp = s.sp

/-- R98, R110: POP reads the two bytes at the fall-through address into the first- and second-named register and moves PC
past them; SP stays. -/
def Obligations.PopPairResult : Prop :=
  ∀ s : State, ∀ p ∈ popForms,
    ∃ t, exec p.1 s = .next t ∧ t.reg p.2.1 = s.byteAt s.pc ∧ t.reg p.2.2 = s.byteAt (s.pc + 1) ∧ t.pc = s.pc + 2 ∧
      t.sp = s.sp

/-- R99, R135, R136: a step at a CALL pushes the address after its three bytes and jumps to the operand decoded before the
push, even where the push lands on the instruction itself. -/
def Obligations.CallStepPushesFallThrough : Prop :=
  ∀ s : State, s.fault = none → s.mem.wf = true → s.byteAt s.pc = 0xCD →
    ∃ t, step s = .next t ∧ (t.byteAt s.sp).toNat = (s.pc + 3).toNat % 256 ∧
      (t.byteAt (s.sp + 1)).toNat = (s.pc + 3).toNat / 256 ∧
      t.pc.toNat = (s.byteAt (s.pc + 2)).toNat * 256 + (s.byteAt (s.pc + 1)).toNat

/-! ### Frames: what each form leaves unchanged (10_state.md R21, R27). OVR may change as R70 says. -/

/-- NOP and LD A,d8: every register but A for the load, every flag, and every byte of memory. -/
def Obligations.NopAndLoadFrame : Prop :=
  ∀ (s t : State) (d8 : Byte), ∀ i ∈ [Instr.nop, .ldAd8 d8], exec i s = .next t →
    (∀ r, (i = .nop ∨ r ≠ .a) → t.reg r = s.reg r) ∧ t.f = s.f ∧ t.sp = s.sp ∧ t.clk = s.clk ∧ t.fault = s.fault ∧
    ∀ x, t.byteAt x = s.byteAt x

/-- ADD HL,rr: every register but H and L, ZERO and the unused flag bits, SP, PC, and every byte of memory. -/
def Obligations.SixteenBitAddFrame : Prop :=
  ∀ s t : State, ∀ i ∈ [Instr.addHLBC, .addHLDE, .addHLHL, .addHLSP], exec i s = .next t →
    (∀ r, r ≠ .h → r ≠ .l → t.reg r = s.reg r) ∧ getFlag .zero t.f = getFlag .zero s.f ∧
    (∀ k, k < 4 → t.f.getLsbD k = s.f.getLsbD k) ∧ t.sp = s.sp ∧ t.pc = s.pc ∧ t.clk = s.clk ∧ t.fault = s.fault ∧
    ∀ x, t.byteAt x = s.byteAt x

/-- SBC and CP: every register, A among them, the unused flag bits, SP, PC, and every byte of memory. -/
def Obligations.SubtractAndCompareFrame : Prop :=
  ∀ (s t : State) (d8 : Byte), ∀ p ∈ sbcForms s d8 ++ cpForms s d8, exec p.1 s = .next t →
    KeepsAllButFlagsAndPc s t ∧ t.pc = s.pc ∧ ∀ k, k < 4 → t.f.getLsbD k = s.f.getLsbD k

/-- XOR: every register but A, SP, PC, and every byte of memory. -/
def Obligations.ExclusiveOrFrame : Prop :=
  ∀ (s t : State) (d8 : Byte), ∀ p ∈ xorForms s d8, exec p.1 s = .next t →
    (∀ r, r ≠ .a → t.reg r = s.reg r) ∧ t.sp = s.sp ∧ t.pc = s.pc ∧ t.clk = s.clk ∧ t.fault = s.fault ∧
    ∀ x, t.byteAt x = s.byteAt x

/-- JR, JP and RET: every register, every flag, SP, and every byte of memory. -/
def Obligations.JumpAndReturnFrame : Prop :=
  ∀ (s t : State) (e8 : Byte) (a16 : Word), ∀ i ∈ [Instr.jrZ e8, .jrC e8, .jpA16 a16, .ret], exec i s = .next t →
    KeepsAllButFlagsAndPc s t ∧ t.f = s.f

/-- CALL, RST and PUSH: every register, every flag, and every byte of memory but the two stored at SP and SP + 1; SP is the
register the push also updates. -/
def Obligations.StackStoreFrame : Prop :=
  ∀ (s t : State) (a16 : Word), ∀ p ∈ storeForms s a16, exec p.1 s = .next t →
    (∀ r, t.reg r = s.reg r) ∧ t.f = s.f ∧ t.clk = s.clk ∧ t.fault = s.fault ∧
    ∀ a : Word, a = s.sp → ∀ x, x ≠ a → x ≠ a + 1 → t.byteAt x = s.byteAt x

/-- POP: every register but the pair's two, every flag, SP, and every byte of memory. -/
def Obligations.PopPairFrame : Prop :=
  ∀ s t : State, ∀ p ∈ popForms, exec p.1 s = .next t →
    (∀ r, r ≠ p.2.1 → r ≠ p.2.2 → t.reg r = s.reg r) ∧ t.f = s.f ∧ t.sp = s.sp ∧ t.clk = s.clk ∧ t.fault = s.fault ∧
    ∀ x, t.byteAt x = s.byteAt x

/-! ### The faults of one step, in the order of 60_exceptions.md R119 -/

/-- R34, R67, R68, R115 to R117, R119: after the first operand byte of a step at an address `a` that is valid, in this order. For
`JP a16` and `CALL a16`: the second address overflows; the second address is invalid; the advance of PC by 2 overflows in step 5.
For the one-byte operands: the advance of PC by 1 overflows in step 5. PC stands past the opcode, and nothing else happened. The
order is the spec's decisions D20 and D24, the record has the model's shape (log 2), and what a faulting step leaves is log 19. -/
def Obligations.LaterOperandFaultsInOrder : Prop :=
  ∀ (c : Config) (s : State) (a : Word), s.fault = none → c.memValid s.pc = true → seq16 c s.pc 1 = some a →
    c.memValid a = true →
    (s.byteAt s.pc ∈ [0xC3, 0xCD] →
      (seq16 c a 1 = none →
        stepOn c s =
          .next { s with
            pc := a
            fault := some ⟨.addressOverflow, some (s.byteAt s.pc), s.pc, some a, some 1⟩ }) ∧
      (∀ b, seq16 c a 1 = some b → c.memValid b = false →
        stepOn c s =
          .next { s with
            pc := a
            fault := some ⟨.memoryOutOfBounds, some (s.byteAt s.pc), s.pc, some b, none⟩ }) ∧
      (∀ b, seq16 c a 1 = some b → c.memValid b = true → seq16 c a 2 = none →
        stepOn c s =
          .next { s with
            pc := a
            fault := some ⟨.addressOverflow, some (s.byteAt s.pc), s.pc, some a, some 2⟩ })) ∧
    (s.byteAt s.pc ∈ [0x3E, 0xDE, 0xEE, 0xFE, 0x28, 0x38] → seq16 c a 1 = none →
      stepOn c s =
        .next { s with
          pc := a
          fault := some ⟨.addressOverflow, some (s.byteAt s.pc), s.pc, some a, some 1⟩ })

/-- R34, R97, R98, R106 to R110, R115, R119: the faults of the two accesses of a push and of a pop, in this order. The first
address invalid: only `FAULT` changes. The second address overflows, as with SP or PC at 0xFFFF under `Fault`, or is invalid: a
push has written its low byte at SP and nothing else, a pop nothing. The order is the spec's decisions D20 and D24, the record has
the model's shape (log 2, log 11), and what a faulting step leaves is log 19. -/
def Obligations.StackAccessFaultsInOrder : Prop :=
  ∀ (c : Config) (s : State) (a16 : Word), s.mem.wf = true →
    (∀ p ∈ storeForms s a16,
      (c.memValid s.sp = false →
        execOn c p.1 s =
          .next { s with
            fault := some ⟨.memoryOutOfBounds, some p.1.opcode, s.pc - BitVec.ofNat 16 p.1.length, some s.sp, none⟩ }) ∧
      (c.memValid s.sp = true → ∀ r,
        (seq16 c s.sp 1 = none ∧
            r = ⟨.addressOverflow, some p.1.opcode, s.pc - BitVec.ofNat 16 p.1.length, some s.sp, some 1⟩) ∨
          (∃ b, seq16 c s.sp 1 = some b ∧ c.memValid b = false ∧
            r = ⟨.memoryOutOfBounds, some p.1.opcode, s.pc - BitVec.ofNat 16 p.1.length, some b, none⟩) →
        ∃ t, execOn c p.1 s = .next t ∧ t = { s with mem := t.mem, fault := some r } ∧ t.mem.wf = true ∧
          (t.byteAt s.sp).toNat = p.2 % 256 ∧ ∀ x, x ≠ s.sp → t.byteAt x = s.byteAt x)) ∧
    ∀ i ∈ [Instr.ret, .popBC, .popDE, .popHL],
      (c.memValid s.pc = false →
        execOn c i s =
          .next { s with fault := some ⟨.memoryOutOfBounds, some i.opcode, s.pc - 1, some s.pc, none⟩ }) ∧
      (∀ b, c.memValid s.pc = true → seq16 c s.pc 1 = some b → c.memValid b = false →
        execOn c i s =
          .next { s with fault := some ⟨.memoryOutOfBounds, some i.opcode, s.pc - 1, some b, none⟩ }) ∧
      (c.memValid s.pc = true → seq16 c s.pc 1 = none →
        execOn c i s =
          .next { s with fault := some ⟨.addressOverflow, some i.opcode, s.pc - 1, some s.pc, some 1⟩ })
end

