-- ==== Sys2Proof/Laws/State.lean ====
section
/-! SUPPORT. One lemma per field per named update, so that no proof unfolds a record update. -/

namespace Sys2Proof.Machine

@[simp] theorem State.withPc_a (s : State) (v : Word) : (s.withPc v).a = s.a := rfl
@[simp] theorem State.withPc_b (s : State) (v : Word) : (s.withPc v).b = s.b := rfl
@[simp] theorem State.withPc_c (s : State) (v : Word) : (s.withPc v).c = s.c := rfl
@[simp] theorem State.withPc_d (s : State) (v : Word) : (s.withPc v).d = s.d := rfl
@[simp] theorem State.withPc_e (s : State) (v : Word) : (s.withPc v).e = s.e := rfl
@[simp] theorem State.withPc_h (s : State) (v : Word) : (s.withPc v).h = s.h := rfl
@[simp] theorem State.withPc_l (s : State) (v : Word) : (s.withPc v).l = s.l := rfl
@[simp] theorem State.withPc_f (s : State) (v : Word) : (s.withPc v).f = s.f := rfl
@[simp] theorem State.withPc_sp (s : State) (v : Word) : (s.withPc v).sp = s.sp := rfl
@[simp] theorem State.withPc_pc (s : State) (v : Word) : (s.withPc v).pc = v := rfl
@[simp] theorem State.withPc_clk (s : State) (v : Word) : (s.withPc v).clk = s.clk := rfl
@[simp] theorem State.withPc_ovr (s : State) (v : Word) : (s.withPc v).ovr = s.ovr := rfl
@[simp] theorem State.withPc_fault (s : State) (v : Word) : (s.withPc v).fault = s.fault := rfl
@[simp] theorem State.withPc_mem (s : State) (v : Word) : (s.withPc v).mem = s.mem := rfl

@[simp] theorem State.withSp_a (s : State) (v : Word) : (s.withSp v).a = s.a := rfl
@[simp] theorem State.withSp_b (s : State) (v : Word) : (s.withSp v).b = s.b := rfl
@[simp] theorem State.withSp_c (s : State) (v : Word) : (s.withSp v).c = s.c := rfl
@[simp] theorem State.withSp_d (s : State) (v : Word) : (s.withSp v).d = s.d := rfl
@[simp] theorem State.withSp_e (s : State) (v : Word) : (s.withSp v).e = s.e := rfl
@[simp] theorem State.withSp_h (s : State) (v : Word) : (s.withSp v).h = s.h := rfl
@[simp] theorem State.withSp_l (s : State) (v : Word) : (s.withSp v).l = s.l := rfl
@[simp] theorem State.withSp_f (s : State) (v : Word) : (s.withSp v).f = s.f := rfl
@[simp] theorem State.withSp_sp (s : State) (v : Word) : (s.withSp v).sp = v := rfl
@[simp] theorem State.withSp_pc (s : State) (v : Word) : (s.withSp v).pc = s.pc := rfl
@[simp] theorem State.withSp_clk (s : State) (v : Word) : (s.withSp v).clk = s.clk := rfl
@[simp] theorem State.withSp_ovr (s : State) (v : Word) : (s.withSp v).ovr = s.ovr := rfl
@[simp] theorem State.withSp_fault (s : State) (v : Word) : (s.withSp v).fault = s.fault := rfl
@[simp] theorem State.withSp_mem (s : State) (v : Word) : (s.withSp v).mem = s.mem := rfl

@[simp] theorem State.withF_a (s : State) (v : Byte) : (s.withF v).a = s.a := rfl
@[simp] theorem State.withF_b (s : State) (v : Byte) : (s.withF v).b = s.b := rfl
@[simp] theorem State.withF_c (s : State) (v : Byte) : (s.withF v).c = s.c := rfl
@[simp] theorem State.withF_d (s : State) (v : Byte) : (s.withF v).d = s.d := rfl
@[simp] theorem State.withF_e (s : State) (v : Byte) : (s.withF v).e = s.e := rfl
@[simp] theorem State.withF_h (s : State) (v : Byte) : (s.withF v).h = s.h := rfl
@[simp] theorem State.withF_l (s : State) (v : Byte) : (s.withF v).l = s.l := rfl
@[simp] theorem State.withF_f (s : State) (v : Byte) : (s.withF v).f = v := rfl
@[simp] theorem State.withF_sp (s : State) (v : Byte) : (s.withF v).sp = s.sp := rfl
@[simp] theorem State.withF_pc (s : State) (v : Byte) : (s.withF v).pc = s.pc := rfl
@[simp] theorem State.withF_clk (s : State) (v : Byte) : (s.withF v).clk = s.clk := rfl
@[simp] theorem State.withF_ovr (s : State) (v : Byte) : (s.withF v).ovr = s.ovr := rfl
@[simp] theorem State.withF_fault (s : State) (v : Byte) : (s.withF v).fault = s.fault := rfl
@[simp] theorem State.withF_mem (s : State) (v : Byte) : (s.withF v).mem = s.mem := rfl

@[simp] theorem State.withA_a (s : State) (v : Byte) : (s.withA v).a = v := rfl
@[simp] theorem State.withA_b (s : State) (v : Byte) : (s.withA v).b = s.b := rfl
@[simp] theorem State.withA_c (s : State) (v : Byte) : (s.withA v).c = s.c := rfl
@[simp] theorem State.withA_d (s : State) (v : Byte) : (s.withA v).d = s.d := rfl
@[simp] theorem State.withA_e (s : State) (v : Byte) : (s.withA v).e = s.e := rfl
@[simp] theorem State.withA_h (s : State) (v : Byte) : (s.withA v).h = s.h := rfl
@[simp] theorem State.withA_l (s : State) (v : Byte) : (s.withA v).l = s.l := rfl
@[simp] theorem State.withA_f (s : State) (v : Byte) : (s.withA v).f = s.f := rfl
@[simp] theorem State.withA_sp (s : State) (v : Byte) : (s.withA v).sp = s.sp := rfl
@[simp] theorem State.withA_pc (s : State) (v : Byte) : (s.withA v).pc = s.pc := rfl
@[simp] theorem State.withA_clk (s : State) (v : Byte) : (s.withA v).clk = s.clk := rfl
@[simp] theorem State.withA_ovr (s : State) (v : Byte) : (s.withA v).ovr = s.ovr := rfl
@[simp] theorem State.withA_fault (s : State) (v : Byte) : (s.withA v).fault = s.fault := rfl
@[simp] theorem State.withA_mem (s : State) (v : Byte) : (s.withA v).mem = s.mem := rfl

@[simp] theorem State.withOvr_a (s : State) (v : Word) : (s.withOvr v).a = s.a := rfl
@[simp] theorem State.withOvr_b (s : State) (v : Word) : (s.withOvr v).b = s.b := rfl
@[simp] theorem State.withOvr_c (s : State) (v : Word) : (s.withOvr v).c = s.c := rfl
@[simp] theorem State.withOvr_d (s : State) (v : Word) : (s.withOvr v).d = s.d := rfl
@[simp] theorem State.withOvr_e (s : State) (v : Word) : (s.withOvr v).e = s.e := rfl
@[simp] theorem State.withOvr_h (s : State) (v : Word) : (s.withOvr v).h = s.h := rfl
@[simp] theorem State.withOvr_l (s : State) (v : Word) : (s.withOvr v).l = s.l := rfl
@[simp] theorem State.withOvr_f (s : State) (v : Word) : (s.withOvr v).f = s.f := rfl
@[simp] theorem State.withOvr_sp (s : State) (v : Word) : (s.withOvr v).sp = s.sp := rfl
@[simp] theorem State.withOvr_pc (s : State) (v : Word) : (s.withOvr v).pc = s.pc := rfl
@[simp] theorem State.withOvr_clk (s : State) (v : Word) : (s.withOvr v).clk = s.clk := rfl
@[simp] theorem State.withOvr_ovr (s : State) (v : Word) : (s.withOvr v).ovr = v := rfl
@[simp] theorem State.withOvr_fault (s : State) (v : Word) : (s.withOvr v).fault = s.fault := rfl
@[simp] theorem State.withOvr_mem (s : State) (v : Word) : (s.withOvr v).mem = s.mem := rfl

@[simp] theorem State.withClk_a (s : State) (v : Word) : (s.withClk v).a = s.a := rfl
@[simp] theorem State.withClk_b (s : State) (v : Word) : (s.withClk v).b = s.b := rfl
@[simp] theorem State.withClk_c (s : State) (v : Word) : (s.withClk v).c = s.c := rfl
@[simp] theorem State.withClk_d (s : State) (v : Word) : (s.withClk v).d = s.d := rfl
@[simp] theorem State.withClk_e (s : State) (v : Word) : (s.withClk v).e = s.e := rfl
@[simp] theorem State.withClk_h (s : State) (v : Word) : (s.withClk v).h = s.h := rfl
@[simp] theorem State.withClk_l (s : State) (v : Word) : (s.withClk v).l = s.l := rfl
@[simp] theorem State.withClk_f (s : State) (v : Word) : (s.withClk v).f = s.f := rfl
@[simp] theorem State.withClk_sp (s : State) (v : Word) : (s.withClk v).sp = s.sp := rfl
@[simp] theorem State.withClk_pc (s : State) (v : Word) : (s.withClk v).pc = s.pc := rfl
@[simp] theorem State.withClk_clk (s : State) (v : Word) : (s.withClk v).clk = v := rfl
@[simp] theorem State.withClk_ovr (s : State) (v : Word) : (s.withClk v).ovr = s.ovr := rfl
@[simp] theorem State.withClk_fault (s : State) (v : Word) : (s.withClk v).fault = s.fault := rfl
@[simp] theorem State.withClk_mem (s : State) (v : Word) : (s.withClk v).mem = s.mem := rfl

@[simp] theorem State.withByte_a (s : State) (x : Word) (v : Byte) : (s.withByte x v).a = s.a := rfl
@[simp] theorem State.withByte_b (s : State) (x : Word) (v : Byte) : (s.withByte x v).b = s.b := rfl
@[simp] theorem State.withByte_c (s : State) (x : Word) (v : Byte) : (s.withByte x v).c = s.c := rfl
@[simp] theorem State.withByte_d (s : State) (x : Word) (v : Byte) : (s.withByte x v).d = s.d := rfl
@[simp] theorem State.withByte_e (s : State) (x : Word) (v : Byte) : (s.withByte x v).e = s.e := rfl
@[simp] theorem State.withByte_h (s : State) (x : Word) (v : Byte) : (s.withByte x v).h = s.h := rfl
@[simp] theorem State.withByte_l (s : State) (x : Word) (v : Byte) : (s.withByte x v).l = s.l := rfl
@[simp] theorem State.withByte_f (s : State) (x : Word) (v : Byte) : (s.withByte x v).f = s.f := rfl
@[simp] theorem State.withByte_sp (s : State) (x : Word) (v : Byte) : (s.withByte x v).sp = s.sp := rfl
@[simp] theorem State.withByte_pc (s : State) (x : Word) (v : Byte) : (s.withByte x v).pc = s.pc := rfl
@[simp] theorem State.withByte_clk (s : State) (x : Word) (v : Byte) : (s.withByte x v).clk = s.clk := rfl
@[simp] theorem State.withByte_ovr (s : State) (x : Word) (v : Byte) : (s.withByte x v).ovr = s.ovr := rfl
@[simp] theorem State.withByte_fault (s : State) (x : Word) (v : Byte) : (s.withByte x v).fault = s.fault := rfl
@[simp] theorem State.withByte_mem (s : State) (x : Word) (v : Byte) : (s.withByte x v).mem = writeCell s.mem x.toNat v := rfl

@[simp] theorem State.raise_a (s : State) (r : FaultRecord) : (s.raise r).a = s.a := rfl
@[simp] theorem State.raise_b (s : State) (r : FaultRecord) : (s.raise r).b = s.b := rfl
@[simp] theorem State.raise_c (s : State) (r : FaultRecord) : (s.raise r).c = s.c := rfl
@[simp] theorem State.raise_d (s : State) (r : FaultRecord) : (s.raise r).d = s.d := rfl
@[simp] theorem State.raise_e (s : State) (r : FaultRecord) : (s.raise r).e = s.e := rfl
@[simp] theorem State.raise_h (s : State) (r : FaultRecord) : (s.raise r).h = s.h := rfl
@[simp] theorem State.raise_l (s : State) (r : FaultRecord) : (s.raise r).l = s.l := rfl
@[simp] theorem State.raise_f (s : State) (r : FaultRecord) : (s.raise r).f = s.f := rfl
@[simp] theorem State.raise_sp (s : State) (r : FaultRecord) : (s.raise r).sp = s.sp := rfl
@[simp] theorem State.raise_pc (s : State) (r : FaultRecord) : (s.raise r).pc = s.pc := rfl
@[simp] theorem State.raise_clk (s : State) (r : FaultRecord) : (s.raise r).clk = s.clk := rfl
@[simp] theorem State.raise_ovr (s : State) (r : FaultRecord) : (s.raise r).ovr = s.ovr := rfl
@[simp] theorem State.raise_fault (s : State) (r : FaultRecord) : (s.raise r).fault = some r := rfl
@[simp] theorem State.raise_mem (s : State) (r : FaultRecord) : (s.raise r).mem = s.mem := rfl

@[simp] theorem State.setReg_f (s : State) (r : Reg) (v : Byte) : (s.setReg r v).f = s.f := by cases r <;> rfl
@[simp] theorem State.setReg_sp (s : State) (r : Reg) (v : Byte) : (s.setReg r v).sp = s.sp := by cases r <;> rfl
@[simp] theorem State.setReg_pc (s : State) (r : Reg) (v : Byte) : (s.setReg r v).pc = s.pc := by cases r <;> rfl
@[simp] theorem State.setReg_clk (s : State) (r : Reg) (v : Byte) : (s.setReg r v).clk = s.clk := by cases r <;> rfl
@[simp] theorem State.setReg_ovr (s : State) (r : Reg) (v : Byte) : (s.setReg r v).ovr = s.ovr := by cases r <;> rfl
@[simp] theorem State.setReg_fault (s : State) (r : Reg) (v : Byte) : (s.setReg r v).fault = s.fault := by cases r <;> rfl
@[simp] theorem State.setReg_mem (s : State) (r : Reg) (v : Byte) : (s.setReg r v).mem = s.mem := by cases r <;> rfl

@[simp] theorem State.setPair_f (s : State) (p : Pair) (v : Word) : (s.setPair p v).f = s.f := by simp [State.setPair]
@[simp] theorem State.setPair_sp (s : State) (p : Pair) (v : Word) : (s.setPair p v).sp = s.sp := by simp [State.setPair]
@[simp] theorem State.setPair_pc (s : State) (p : Pair) (v : Word) : (s.setPair p v).pc = s.pc := by simp [State.setPair]
@[simp] theorem State.setPair_clk (s : State) (p : Pair) (v : Word) : (s.setPair p v).clk = s.clk := by simp [State.setPair]
@[simp] theorem State.setPair_ovr (s : State) (p : Pair) (v : Word) : (s.setPair p v).ovr = s.ovr := by simp [State.setPair]
@[simp] theorem State.setPair_fault (s : State) (p : Pair) (v : Word) : (s.setPair p v).fault = s.fault := by simp [State.setPair]
@[simp] theorem State.setPair_mem (s : State) (p : Pair) (v : Word) : (s.setPair p v).mem = s.mem := by simp [State.setPair]

/-! What a register, a pair and a byte of memory read as after an update. -/

@[simp] theorem State.reg_withPc (s : State) (v : Word) (r : Reg) : (s.withPc v).reg r = s.reg r := by cases r <;> rfl
@[simp] theorem State.pair_withPc (s : State) (v : Word) (p : Pair) : (s.withPc v).pair p = s.pair p := by simp [State.pair]
@[simp] theorem State.byteAt_withPc (s : State) (v : Word) (x : Word) : (s.withPc v).byteAt x = s.byteAt x := rfl
@[simp] theorem State.reg_withSp (s : State) (v : Word) (r : Reg) : (s.withSp v).reg r = s.reg r := by cases r <;> rfl
@[simp] theorem State.pair_withSp (s : State) (v : Word) (p : Pair) : (s.withSp v).pair p = s.pair p := by simp [State.pair]
@[simp] theorem State.byteAt_withSp (s : State) (v : Word) (x : Word) : (s.withSp v).byteAt x = s.byteAt x := rfl
@[simp] theorem State.reg_withF (s : State) (v : Byte) (r : Reg) : (s.withF v).reg r = s.reg r := by cases r <;> rfl
@[simp] theorem State.pair_withF (s : State) (v : Byte) (p : Pair) : (s.withF v).pair p = s.pair p := by simp [State.pair]
@[simp] theorem State.byteAt_withF (s : State) (v : Byte) (x : Word) : (s.withF v).byteAt x = s.byteAt x := rfl
@[simp] theorem State.reg_withA (s : State) (v : Byte) (r : Reg) : (s.withA v).reg r = if r = .a then v else s.reg r := by cases r <;> rfl
@[simp] theorem State.pair_withA (s : State) (v : Byte) (p : Pair) : (s.withA v).pair p = s.pair p := by cases p <;> rfl
@[simp] theorem State.byteAt_withA (s : State) (v : Byte) (x : Word) : (s.withA v).byteAt x = s.byteAt x := rfl
@[simp] theorem State.reg_withOvr (s : State) (v : Word) (r : Reg) : (s.withOvr v).reg r = s.reg r := by cases r <;> rfl
@[simp] theorem State.pair_withOvr (s : State) (v : Word) (p : Pair) : (s.withOvr v).pair p = s.pair p := by simp [State.pair]
@[simp] theorem State.byteAt_withOvr (s : State) (v : Word) (x : Word) : (s.withOvr v).byteAt x = s.byteAt x := rfl
@[simp] theorem State.reg_withClk (s : State) (v : Word) (r : Reg) : (s.withClk v).reg r = s.reg r := by cases r <;> rfl
@[simp] theorem State.pair_withClk (s : State) (v : Word) (p : Pair) : (s.withClk v).pair p = s.pair p := by simp [State.pair]
@[simp] theorem State.byteAt_withClk (s : State) (v : Word) (x : Word) : (s.withClk v).byteAt x = s.byteAt x := rfl
@[simp] theorem State.reg_withByte (s : State) (x : Word) (v : Byte) (r : Reg) : (s.withByte x v).reg r = s.reg r := by cases r <;> rfl
@[simp] theorem State.pair_withByte (s : State) (x : Word) (v : Byte) (p : Pair) : (s.withByte x v).pair p = s.pair p := by simp [State.pair]
@[simp] theorem State.reg_raise (s : State) (k : FaultRecord) (r : Reg) : (s.raise k).reg r = s.reg r := by cases r <;> rfl
@[simp] theorem State.pair_raise (s : State) (k : FaultRecord) (p : Pair) : (s.raise k).pair p = s.pair p := by simp [State.pair]
@[simp] theorem State.byteAt_raise (s : State) (k : FaultRecord) (x : Word) : (s.raise k).byteAt x = s.byteAt x := rfl
@[simp] theorem State.reg_setReg (s : State) (r q : Reg) (v : Byte) : (s.setReg r v).reg q = if q = r then v else s.reg q := by cases r <;> cases q <;> rfl
@[simp] theorem State.byteAt_setReg (s : State) (r : Reg) (v : Byte) (x : Word) : (s.setReg r v).byteAt x = s.byteAt x := by simp [State.byteAt]
@[simp] theorem State.byteAt_setPair (s : State) (p : Pair) (v : Word) (x : Word) : (s.setPair p v).byteAt x = s.byteAt x := by simp [State.byteAt]
@[simp] theorem State.withPc_withPc (s : State) (v w : Word) : (s.withPc v).withPc w = s.withPc w := rfl

/-! Words and their bytes. -/

/-- `hi ++ lo = hi * 256 + lo` (00_scope.md R8). -/
theorem word_toNat (hi lo : Byte) : (word hi lo).toNat = hi.toNat * 256 + lo.toNat := by
  have h := lo.isLt
  have e : (word hi lo).toNat = (hi.toNat <<< 8 ||| lo.toNat) := BitVec.toNat_append hi lo
  rw [e, Nat.shiftLeft_eq, Nat.mul_comm, ← Nat.two_pow_add_eq_or_of_lt h]

theorem lowByte_toNat (v : Word) : (lowByte v).toNat = v.toNat % 256 := by simp [lowByte]

theorem highByte_toNat (v : Word) : (highByte v).toNat = v.toNat / 256 := by
  have h := v.isLt
  simp only [highByte, BitVec.extractLsb'_toNat, Nat.shiftRight_eq_div_pow]
  omega

@[simp] theorem lowByte_word (hi lo : Byte) : lowByte (word hi lo) = lo := by
  apply BitVec.eq_of_toNat_eq
  have := lo.isLt
  rw [lowByte_toNat, word_toNat]
  omega

@[simp] theorem highByte_word (hi lo : Byte) : highByte (word hi lo) = hi := by
  apply BitVec.eq_of_toNat_eq
  have := lo.isLt
  rw [highByte_toNat, word_toNat]
  omega

@[simp] theorem word_bytes (v : Word) : word (highByte v) (lowByte v) = v := by
  apply BitVec.eq_of_toNat_eq
  rw [word_toNat, highByte_toNat, lowByte_toNat]
  omega

@[simp] theorem leWord_leBytes (v : Word) : leWord (leBytes v) = v := by simp [leWord, leBytes]

@[simp] theorem leBytes_length (v : Word) : (leBytes v).length = 2 := rfl

theorem State.pair_toNat (s : State) (p : Pair) :
    (s.pair p).toNat = (s.reg p.second).toNat * 256 + (s.reg p.first).toNat := word_toNat _ _

theorem State.pair_setPair (s : State) (p q : Pair) (v : Word) :
    (s.setPair p v).pair q = if q = p then v else s.pair q := by
  cases p <;> cases q <;> simp [State.pair, State.setPair, Pair.first, Pair.second]

end Sys2Proof.Machine
end

