-- ==== Sys2Proof/Laws/Decode.lean ====
section
/-! SUPPORT. The dispatch table beside the encoder: each entry's instruction encodes to the entry's opcode and operand. -/

namespace Sys2Proof

open Sys2Proof.Machine

/-- The table has a behaviour for the admitted opcodes and no others (30_encoding.md R56, R57). -/
theorem dispatchTable_isSome (op : Byte) : (dispatchTable op).isSome = admittedOpcodes.contains op := by
  revert op
  decide

theorem dispatchTable_eq_none (op : Byte) : dispatchTable op = none ↔ admittedOpcodes.contains op = false := by
  rw [← dispatchTable_isSome, Option.isSome_eq_false_iff, Option.isNone_iff_eq_none]

/-- What an entry builds, by its form: a well-formed instruction with the entry's opcode and the operand's bytes. -/
def Form.Builds (op : Byte) : Form → Prop
  | .f0 i => i.encode = [op] ∧ i.wellFormed = true ∧ ∀ op, i ≠ .unimplemented op
  | .f1 mk => ∀ v, (mk v).encode = [op, v] ∧ (mk v).wellFormed = true ∧ ∀ op, mk v ≠ .unimplemented op
  | .f2 mk => ∀ v, (mk v).encode = op :: leBytes v ∧ (mk v).wellFormed = true ∧ ∀ op, mk v ≠ .unimplemented op

theorem byte_eq_of_toNat {op : Byte} {n : Nat} (h : op.toNat = n) : op = BitVec.ofNat 8 n := by
  subst h
  simp

theorem dispatchTable_builds {op : Byte} {e : Entry} (h : dispatchTable op = some e) : e.form.Builds op := by
  unfold dispatchTable at h
  split at h <;> cases h <;>
  · have o := byte_eq_of_toNat ‹op.toNat = _›
    subst o
    simp [Form.Builds, Instr.encode, Instr.opcode, Instr.operandBytes, Instr.wellFormed]

end Sys2Proof
end

