-- ==== Sys2Proof/Laws/Flags.lean ====
section
/-! SUPPORT. The flag algebra (42_alu_flags.md): what one `setFlag` does to each flag and to the unused bits. -/

namespace Sys2Proof.Machine

/-- R79: the flag has the value set, every other flag its own. -/
@[simp] theorem getFlag_setFlag (x y : Flag) (v : Bool) (f : Byte) :
    getFlag y (setFlag x v f) = if y = x then v else getFlag y f := by
  cases x <;> cases y <;> cases v <;> revert f <;> decide

/-- R79, R80: the unused bits are not touched. -/
@[simp] theorem setFlag_unused (x : Flag) (v : Bool) (f : Byte) : setFlag x v f &&& 15#8 = f &&& 15#8 := by
  cases x <;> cases v <;> revert f <;> decide

/-- R79: setting a flag again changes nothing. -/
@[simp] theorem setFlag_setFlag (x : Flag) (v w : Bool) (f : Byte) : setFlag x v (setFlag x w f) = setFlag x v f := by
  cases x <;> cases v <;> cases w <;> revert f <;> decide

/-- Equal unused bits, bit by bit. -/
theorem getLsbD_of_unused_eq {f g : Byte} (u : f &&& 15#8 = g &&& 15#8) {i : Nat} (lt : i < 4) :
    f.getLsbD i = g.getLsbD i := by
  have := congrArg (fun b : Byte => b.getLsbD i) u
  have m : (15#8).getLsbD i = true := by
    have : i = 0 ∨ i = 1 ∨ i = 2 ∨ i = 3 := by omega
    rcases this with rfl | rfl | rfl | rfl <;> decide
  simpa only [BitVec.getLsbD_and, m, Bool.and_true] using this

/-- A flag byte is its four flags and its unused bits (10_state.md R19, R20). -/
theorem flagByte_ext {f g : Byte} (h : ∀ x, getFlag x f = getFlag x g) (u : f &&& 15#8 = g &&& 15#8) : f = g := by
  have z := h .zero
  have n := h .negative
  have k := h .halfCarry
  have c := h .carry
  simp only [getFlag, Flag.pos] at z n k c
  have low : ∀ i, i < 4 → f.getLsbD i = g.getLsbD i := fun _ lt => getLsbD_of_unused_eq u lt
  apply BitVec.eq_of_getLsbD_eq
  intro i lt
  by_cases l : i < 4
  · exact low i l
  · have : i = 4 ∨ i = 5 ∨ i = 6 ∨ i = 7 := by omega
    rcases this with rfl | rfl | rfl | rfl <;> assumption

@[simp] theorem add16Flags_unused (dst addend : Word) (f : Byte) : add16Flags dst addend f &&& 15#8 = f &&& 15#8 := by
  simp [add16Flags]

@[simp] theorem sbcFlags_unused (a x f : Byte) : sbcFlags a x f &&& 15#8 = f &&& 15#8 := by simp [sbcFlags]

@[simp] theorem xorFlags_unused (r : Byte) : xorFlags r &&& 15#8 = 0#8 := by simp [xorFlags]

@[simp] theorem cpChain_unused (a x f : Byte) : cpChain a x f &&& 15#8 = f &&& 15#8 := by
  unfold cpChain
  split
  · simp
  · split
    · simp
    · split <;> simp

@[simp] theorem cpFlags_unused (u : CpUnfired) (a x f : Byte) : cpFlags u a x f &&& 15#8 = f &&& 15#8 := by
  cases u <;> simp [cpFlags]

/-- The low nibble as a remainder. -/
theorem lowNibble_eq (v : Byte) : lowNibble v = v.toNat % 16 := by
  simp only [lowNibble, BitVec.toNat_and]
  exact Nat.and_two_pow_sub_one_eq_mod _ 4

/-- The low nibble of a word as a remainder. -/
theorem lowNibbleW_eq (v : Word) : lowNibbleW v = v.toNat % 16 := by
  simp only [lowNibbleW, BitVec.toNat_and]
  exact Nat.and_two_pow_sub_one_eq_mod _ 4

/-- R88: the whole of `F` after an exclusive-or. -/
theorem xorFlags_eq (r : Byte) : xorFlags r = if r = 0 then 0x80 else 0x00 := by
  revert r
  decide

/-- R92: which flags the chain of a compare leaves set. -/
theorem getFlag_cpChain (a x f : Byte) :
    (getFlag .zero (cpChain a x f) = true ↔ x = a ∨ getFlag .zero f = true) ∧
    (getFlag .carry (cpChain a x f) = true ↔ a.toNat < x.toNat ∨ getFlag .carry f = true) ∧
    (getFlag .halfCarry (cpChain a x f) = true ↔
      (x.toNat < a.toNat ∧ x.toNat % 16 > a.toNat % 16) ∨ getFlag .halfCarry f = true) ∧
    getFlag .negative (cpChain a x f) = getFlag .negative f := by
  unfold cpChain
  simp only [lowNibble_eq]
  by_cases h1 : x = a
  · subst h1
    simp
  · have ne : x.toNat ≠ a.toNat := fun h => h1 (BitVec.eq_of_toNat_eq h)
    rw [if_neg h1]
    by_cases h2 : a.toNat < x.toNat
    · have : ¬x.toNat < a.toNat := by omega
      rw [if_pos h2]
      simp [h1, h2, this]
    · have : x.toNat < a.toNat := by omega
      rw [if_neg h2]
      by_cases h3 : x.toNat % 16 > a.toNat % 16
      · rw [if_pos h3]
        simp [h1, h2, this, h3]
      · rw [if_neg h3]
        simp [h1, h2, h3]

end Sys2Proof.Machine
end

