-- ==== Sys2Proof/Laws/Memory.lean ====
section
/-! SUPPORT. Flat memory: what a read gives after a write, and that every operation keeps the canonical form. -/

namespace Sys2Proof.Machine

@[simp] theorem readCell_nil (a : Nat) : readCell [] a = unlistedByte := rfl

theorem readCell_cons (k : Nat) (v : Byte) (m : Memory) (a : Nat) :
    readCell ((k, v) :: m) a = if a = k then v else readCell m a := rfl

theorem wfFrom_cons {lo k : Nat} {v : Byte} {m : Memory} :
    Memory.wfFrom lo ((k, v) :: m) = true ↔
      lo ≤ k ∧ k < addressSpace ∧ v ≠ unlistedByte ∧ Memory.wfFrom (k + 1) m = true := by
  simp [Memory.wfFrom, and_assoc]

theorem wfFrom_mono {lo hi : Nat} {m : Memory} (h : Memory.wfFrom hi m = true) (le : lo ≤ hi) :
    Memory.wfFrom lo m = true := by
  cases m with
  | nil => rfl
  | cons p m =>
    obtain ⟨k, v⟩ := p
    rw [wfFrom_cons] at h ⊢
    exact ⟨by omega, h.2⟩

/-- Below the first address it may list, a memory reads as unlisted. -/
theorem readCell_of_lt {lo a : Nat} {m : Memory} (h : Memory.wfFrom lo m = true) (lt : a < lo) :
    readCell m a = unlistedByte := by
  induction m generalizing lo with
  | nil => rfl
  | cons p m ih =>
    obtain ⟨k, v⟩ := p
    rw [wfFrom_cons] at h
    rw [readCell_cons, if_neg (by omega)]
    exact ih h.2.2.2 (by omega)

theorem readCell_listCell_other {a b : Nat} (v : Byte) (m : Memory) (ne : b ≠ a) :
    readCell (listCell a v m) b = readCell m b := by
  unfold listCell
  split
  · rfl
  · rw [readCell_cons, if_neg ne]

theorem readCell_listCell_same {a lo : Nat} (v : Byte) {m : Memory} (h : Memory.wfFrom lo m = true) (lt : a < lo) :
    readCell (listCell a v m) a = v := by
  unfold listCell
  split
  · rw [readCell_of_lt h lt]; symm; assumption
  · rw [readCell_cons, if_pos rfl]

theorem wfFrom_listCell {lo a : Nat} {m : Memory} (v : Byte) (h : Memory.wfFrom (a + 1) m = true) (le : lo ≤ a)
    (lt : a < addressSpace) : Memory.wfFrom lo (listCell a v m) = true := by
  unfold listCell
  split
  · exact wfFrom_mono h (by omega)
  · rw [wfFrom_cons]; exact ⟨le, lt, ‹_›, h⟩

/-- A write leaves every other address alone (20_memory.md R37, R38). -/
theorem readCell_writeCell_other {m : Memory} {a b : Nat} (v : Byte) (ne : b ≠ a) :
    readCell (writeCell m a v) b = readCell m b := by
  induction m with
  | nil => exact readCell_listCell_other v [] ne
  | cons p m ih =>
    obtain ⟨k, u⟩ := p
    simp only [writeCell]
    split
    · exact readCell_listCell_other v _ ne
    · split
      · subst k; rw [readCell_listCell_other v _ ne, readCell_cons, if_neg ne]
      · rw [readCell_cons, readCell_cons, ih]

theorem readCell_writeCell_same_from {m : Memory} {lo a : Nat} (v : Byte) (h : Memory.wfFrom lo m = true) :
    readCell (writeCell m a v) a = v := by
  induction m generalizing lo with
  | nil => exact readCell_listCell_same (lo := a + 1) v rfl (by omega)
  | cons p m ih =>
    obtain ⟨k, u⟩ := p
    have h' := wfFrom_cons.1 h
    simp only [writeCell]
    split
    · exact readCell_listCell_same (lo := k) v (wfFrom_cons.2 ⟨le_refl k, h'.2⟩) ‹_›
    · split
      · subst k; exact readCell_listCell_same v h'.2.2.2 (by omega)
      · rw [readCell_cons, if_neg ‹_›]; exact ih h'.2.2.2

/-- A read after a write gives the byte written (R37). -/
theorem readCell_writeCell_same {m : Memory} {a : Nat} (v : Byte) (h : m.wf = true) :
    readCell (writeCell m a v) a = v := readCell_writeCell_same_from v h

theorem wfFrom_writeCell {m : Memory} {lo a : Nat} (v : Byte) (h : Memory.wfFrom lo m = true) (le : lo ≤ a)
    (lt : a < addressSpace) : Memory.wfFrom lo (writeCell m a v) = true := by
  induction m generalizing lo with
  | nil => exact wfFrom_listCell v rfl le lt
  | cons p m ih =>
    obtain ⟨k, u⟩ := p
    have h' := wfFrom_cons.1 h
    simp only [writeCell]
    split
    · exact wfFrom_listCell v (wfFrom_cons.2 ⟨by omega, h'.2⟩) le lt
    · split
      · subst k; exact wfFrom_listCell v h'.2.2.2 le lt
      · exact wfFrom_cons.2 ⟨h'.1, h'.2.1, h'.2.2.1, ih h'.2.2.2 (by omega)⟩

/-- A write keeps the canonical form. -/
theorem wf_writeCell {m : Memory} {a : Nat} (v : Byte) (h : m.wf = true) (lt : a < addressSpace) :
    (writeCell m a v).wf = true := wfFrom_writeCell v h (Nat.zero_le a) lt

/-- The program load keeps the canonical form while it stays inside the address space. -/
theorem wf_writeCells {m : Memory} {a : Nat} (vs : List Byte) (h : m.wf = true) (le : a + vs.length ≤ addressSpace) :
    (writeCells m a vs).wf = true := by
  induction vs generalizing m a with
  | nil => exact h
  | cons v vs ih =>
    simp only [List.length_cons] at le
    exact ih (wf_writeCell v h (by omega)) (by omega)

/-- What the program load leaves at an address: the image's byte, or what memory held (20_memory.md R46). -/
theorem readCell_writeCells {m : Memory} (vs : List Byte) (a b : Nat) (h : m.wf = true)
    (le : a + vs.length ≤ addressSpace) :
    readCell (writeCells m a vs) b =
      if a ≤ b ∧ b < a + vs.length then vs.getD (b - a) 0 else readCell m b := by
  induction vs generalizing m a with
  | nil => rw [if_neg (by simp)]; rfl
  | cons v vs ih =>
    simp only [List.length_cons] at le ⊢
    rw [writeCells, ih (a + 1) (wf_writeCell v h (by omega)) (by omega)]
    by_cases e : b = a
    · subst b
      rw [if_neg (by omega), if_pos (by omega), readCell_writeCell_same v h]
      simp
    · rw [readCell_writeCell_other v e]
      by_cases l : a + 1 ≤ b ∧ b < a + 1 + vs.length
      · rw [if_pos l, if_pos (by omega), show b - a = b - (a + 1) + 1 by omega]
        simp
      · rw [if_neg l, if_neg (by omega)]

theorem eq_of_readCell_eq_from {m n : Memory} {lo : Nat} (hm : Memory.wfFrom lo m = true)
    (hn : Memory.wfFrom lo n = true) (eq : ∀ a, readCell m a = readCell n a) : m = n := by
  induction m generalizing n lo with
  | nil =>
    cases n with
    | nil => rfl
    | cons q n =>
      obtain ⟨k, v⟩ := q
      have := eq k
      rw [readCell_cons, if_pos rfl] at this
      exact absurd this.symm (wfFrom_cons.1 hn).2.2.1
  | cons p m ih =>
    obtain ⟨j, u⟩ := p
    have hm' := wfFrom_cons.1 hm
    cases n with
    | nil =>
      have := eq j
      rw [readCell_cons, if_pos rfl] at this
      exact absurd this hm'.2.2.1
    | cons q n =>
      obtain ⟨k, v⟩ := q
      have hn' := wfFrom_cons.1 hn
      have jk : j = k := by
        rcases Nat.lt_trichotomy j k with lt | rfl | gt
        · have := eq j
          rw [readCell_cons, if_pos rfl, readCell_of_lt (wfFrom_cons.2 ⟨le_refl k, hn'.2⟩) lt] at this
          exact absurd this hm'.2.2.1
        · rfl
        · have := eq k
          rw [readCell_cons (k := k), if_pos rfl, readCell_of_lt (wfFrom_cons.2 ⟨le_refl j, hm'.2⟩) gt] at this
          exact absurd this.symm hn'.2.2.1
      subst k
      have uv : u = v := by simpa [readCell_cons] using eq j
      subst v
      rw [ih hm'.2.2.2 hn'.2.2.2 fun a => ?_]
      by_cases e : a = j
      · subst a
        rw [readCell_of_lt hm'.2.2.2 (by omega), readCell_of_lt hn'.2.2.2 (by omega)]
      · simpa [readCell_cons, e] using eq a

/-- The form is canonical: memories that read alike are equal data. -/
theorem eq_of_readCell_eq {m n : Memory} (hm : m.wf = true) (hn : n.wf = true)
    (eq : ∀ a, readCell m a = readCell n a) : m = n := eq_of_readCell_eq_from hm hn eq

theorem word_lt (a : Word) : a.toNat < addressSpace := a.isLt

/-- Storing a byte keeps memory canonical (20_memory.md R38). -/
@[simp] theorem State.wf_withByte {s : State} {a : Word} {v : Byte} (h : s.mem.wf = true) :
    (s.withByte a v).mem.wf = true := wf_writeCell v h (word_lt a)

/-- What memory reads as after a store: the byte written at its address, all else as before (R37). -/
theorem State.byteAt_withByte {s : State} {a : Word} {v : Byte} (h : s.mem.wf = true) (b : Word) :
    (s.withByte a v).byteAt b = if b = a then v else s.byteAt b := by
  simp only [State.byteAt, State.withByte_mem]
  split
  · subst b; exact readCell_writeCell_same v h
  · exact readCell_writeCell_other v fun e => ‹¬_› (BitVec.eq_of_toNat_eq e)

/-- A store leaves every other address alone, whatever the memory. -/
theorem State.byteAt_withByte_other {s : State} {a b : Word} {v : Byte} (ne : b ≠ a) :
    (s.withByte a v).byteAt b = s.byteAt b :=
  readCell_writeCell_other v fun e => ne (BitVec.eq_of_toNat_eq e)

end Sys2Proof.Machine
end

