-- ==== Sys2Proof/Laws/Ops.lean ====
section
/-! SUPPORT. One lemma per shared operation: what it does under `Wrap` with every address valid, which is this hardware,
and what it can do at all on any parameters. -/

namespace Sys2Proof.Machine

/-! ### Results -/

@[simp] theorem Res.bind_ok {α β : Type} (v : α) (s : State) (k : α → State → Res β) :
    (Res.ok v s).bind k = k v s := rfl

@[simp] theorem Res.bind_raised {α β : Type} (s : State) (k : α → State → Res β) :
    (Res.raised s).bind k = .raised s := rfl

/-- Where a part of a step can end: `P` of its value and state, or `Q` of the state it raised in. -/
inductive Res.Meets {α : Type} (P : α → State → Prop) (Q : State → Prop) : Res α → Prop where
  | ok {v : α} {s : State} (h : P v s) : Meets P Q (.ok v s)
  | raised {s : State} (h : Q s) : Meets P Q (.raised s)

theorem Res.meets_ok {α : Type} {v : α} {s : State} {P : α → State → Prop} {Q : State → Prop} :
    Res.Meets P Q (.ok v s) ↔ P v s := ⟨fun h => by cases h; assumption, .ok⟩

theorem Res.meets_raised {α : Type} {s : State} {P : α → State → Prop} {Q : State → Prop} :
    Res.Meets P Q (.raised (α := α) s) ↔ Q s := ⟨fun h => by cases h; assumption, .raised⟩

theorem Res.Meets.bind {α β : Type} {r : Res α} {P : α → State → Prop} {Q : State → Prop} {k : α → State → Res β}
    {P' : β → State → Prop} (h : r.Meets P Q) (hk : ∀ v s, P v s → (k v s).Meets P' Q) :
    (r.bind k).Meets P' Q := by
  cases h with
  | ok h => exact hk _ _ h
  | raised h => exact .raised h

theorem Res.Meets.imp {α : Type} {r : Res α} {P P' : α → State → Prop} {Q Q' : State → Prop} (h : r.Meets P Q)
    (hP : ∀ v s, P v s → P' v s) (hQ : ∀ s, Q s → Q' s) : r.Meets P' Q' := by
  cases h with
  | ok h => exact .ok (hP _ _ h)
  | raised h => exact .raised (hQ _ h)

/-! ### seq16 -/

theorem seq16_of_range {c : Config} {x : Word} {k : Int} (h : 0 ≤ (x.toNat : Int) + k ∧ (x.toNat : Int) + k ≤ 0xFFFF) :
    seq16 c x k = some (BitVec.ofInt 16 (x.toNat + k)) := if_pos ⟨h.1, by omega⟩

theorem seq16_wrap {c : Config} (h : c.overflowPolicy = .wrap) (x : Word) (k : Int) :
    seq16 c x k = some (BitVec.ofInt 16 (x.toNat + k)) := by
  unfold seq16
  simp only [h]
  split <;> rfl

theorem seq16_fault {c : Config} (h : c.overflowPolicy = .fault) {x : Word} {k : Int}
    (out : ¬(0 ≤ (x.toNat : Int) + k ∧ (x.toNat : Int) + k ≤ 0xFFFF)) : seq16 c x k = none := by
  unfold seq16
  simp only [h]
  exact if_neg (by omega)

/-- The first byte of an access never overflows. -/
@[simp] theorem seq16_zero (c : Config) (x : Word) : seq16 c x 0 = some x := by
  have h := x.isLt
  rw [seq16_of_range (by omega)]
  congr 1
  apply BitVec.eq_of_toNat_eq
  simp

theorem ofInt_add (x : Word) (k : Int) : BitVec.ofInt 16 (x.toNat + k) = x + BitVec.ofInt 16 k := by
  rw [BitVec.ofInt_add]
  congr 1
  apply BitVec.eq_of_toNat_eq
  simp

@[simp] theorem seq16_hardware (x : Word) (k : Int) : seq16 hardware x k = some (x + BitVec.ofInt 16 k) := by
  rw [seq16_wrap rfl, ofInt_add]

@[simp] theorem seqStep_hardware (site : Site) (x : Word) (k : Int) (s : State) :
    seqStep hardware site x k s = .ok (x + BitVec.ofInt 16 k) s := by simp [seqStep]

theorem seqStep_cases (c : Config) (site : Site) (x : Word) (k : Int) (s : State) :
    (∃ y, seq16 c x k = some y ∧ seqStep c site x k s = .ok y s) ∨
    (seq16 c x k = none ∧ seqStep c site x k s = .raised (s.raise (site.overflow x k))) := by
  unfold seqStep
  cases seq16 c x k <;> simp

@[simp] theorem advancePc_hardware (site : Site) (k : Int) (s : State) :
    advancePc hardware site k s = .ok () (s.withPc (s.pc + BitVec.ofInt 16 k)) := by simp [advancePc]

@[simp] theorem ofInt_natCast (n : Nat) : BitVec.ofInt 16 (n : Int) = BitVec.ofNat 16 n := by
  apply BitVec.eq_of_toNat_eq
  simp

/-! ### The memory interface -/

@[simp] theorem readByte_hardware (site : Site) (a : Word) (s : State) :
    readByte hardware site a s = .ok (s.byteAt a) s := rfl

@[simp] theorem writeByte_hardware (site : Site) (a : Word) (v : Byte) (s : State) :
    writeByte hardware site a v s = .ok () (s.withByte a v) := rfl

/-- A two-byte read in its order: the first byte, the second address, the second byte (R34). -/
theorem readBytes_two (c : Config) (site : Site) (a : Word) (s : State) :
    readBytes c site a 2 s =
      (readByte c site a s).bind fun v s => (seqStep c site a 1 s).bind fun b s =>
        (readByte c site b s).bind fun w s => .ok [v, w] s := by
  have z : ∀ s, seqStep c site a ((0 : Nat) : Int) s = .ok a s := fun s => by
    simp only [seqStep, show seq16 c a ((0 : Nat) : Int) = some a from seq16_zero c a]
  have e : ((0 + 1 : Nat) : Int) = 1 := rfl
  simp only [readBytes, readBytesFrom, z, e, Res.bind_ok]
  unfold readByte
  split
  · simp only [Res.bind_ok]
    rcases seqStep_cases c site a 1 s with ⟨b, -, h⟩ | ⟨-, h⟩ <;> rw [h]
    · simp only [Res.bind_ok]
      split <;> rfl
    · rfl
  · rfl

/-- A two-byte write in its order (R34). -/
theorem writeBytes_two (c : Config) (site : Site) (a : Word) (v w : Byte) (s : State) :
    writeBytes c site a [v, w] s =
      (writeByte c site a v s).bind fun _ s => (seqStep c site a 1 s).bind fun b s => writeByte c site b w s := by
  have z : ∀ s, seqStep c site a ((0 : Nat) : Int) s = .ok a s := fun s => by
    simp only [seqStep, show seq16 c a ((0 : Nat) : Int) = some a from seq16_zero c a]
  have e : ((0 + 1 : Nat) : Int) = 1 := rfl
  simp only [writeBytes, writeBytesFrom, z, e, Res.bind_ok]
  unfold writeByte
  split
  · simp only [Res.bind_ok]
    rcases seqStep_cases c site a 1 (s.withByte a v) with ⟨b, -, h⟩ | ⟨-, h⟩ <;> rw [h]
    · simp only [Res.bind_ok]
      split <;> rfl
    · rfl
  · rfl

/-- `seq16` inside a step where it has a value. -/
theorem seqStep_some {c : Config} {site : Site} {x y : Word} {k : Int} (s : State) (h : seq16 c x k = some y) :
    seqStep c site x k s = .ok y s := by simp only [seqStep, h]

/-- `seq16` inside a step where it overflows. -/
theorem seqStep_none {c : Config} {site : Site} {x : Word} {k : Int} (s : State) (h : seq16 c x k = none) :
    seqStep c site x k s = .raised (s.raise (site.overflow x k)) := by simp only [seqStep, h]

/-- A byte access where the address is valid. -/
theorem readByte_valid {c : Config} {a : Word} (site : Site) (s : State) (h : c.memValid a = true) :
    readByte c site a s = .ok (s.byteAt a) s := if_pos h

/-- A byte access where it is not: nothing is read (R115). -/
theorem readByte_invalid {c : Config} {a : Word} (site : Site) (s : State) (h : c.memValid a = false) :
    readByte c site a s = .raised (s.raise (site.outOfBounds a)) := if_neg (by simp [h])

theorem writeByte_valid {c : Config} {a : Word} (site : Site) (v : Byte) (s : State) (h : c.memValid a = true) :
    writeByte c site a v s = .ok () (s.withByte a v) := if_pos h

/-- Nothing is written at an invalid address (R115). -/
theorem writeByte_invalid {c : Config} {a : Word} (site : Site) (v : Byte) (s : State) (h : c.memValid a = false) :
    writeByte c site a v s = .raised (s.raise (site.outOfBounds a)) := if_neg (by simp [h])

@[simp] theorem readBytes_two_hardware (site : Site) (a : Word) (s : State) :
    readBytes hardware site a 2 s = .ok [s.byteAt a, s.byteAt (a + 1)] s := by
  simp [readBytes, readBytesFrom]

@[simp] theorem readWord_hardware (site : Site) (a : Word) (s : State) :
    readWord hardware site a s = .ok (word (s.byteAt (a + 1)) (s.byteAt a)) s := by
  simp [readWord, leWord]

@[simp] theorem writeBytes_two_hardware (site : Site) (a : Word) (v w : Byte) (s : State) :
    writeBytes hardware site a [v, w] s = .ok () ((s.withByte a v).withByte (a + 1) w) := by
  simp [writeBytes, writeBytesFrom]

/-! ### Stack and control transfer -/

theorem add_ofInt_neg_two (x : Word) : x + BitVec.ofInt 16 (-2) = x - 2#16 := by
  rw [show BitVec.ofInt 16 (-2) = -2#16 by decide, BitVec.sub_eq_add_neg]

@[simp] theorem push_hardware (site : Site) (v : Word) (s : State) :
    push hardware site (leBytes v) s =
      .ok () (((s.withByte s.sp (lowByte v)).withByte (s.sp + 1) (highByte v)).withSp (s.sp - 2)) := by
  simp only [push, leBytes, writeBytes_two_hardware, Res.bind_ok, seqStep_hardware, List.length_cons,
    List.length_nil]
  rw [show (-((0 + 1 + 1 : Nat) : Int)) = -2 by rfl, add_ofInt_neg_two]
  rfl

@[simp] theorem pop_hardware (site : Site) (s : State) :
    pop hardware site 2 s = .ok [s.byteAt s.pc, s.byteAt (s.pc + 1)] (s.withPc (s.pc + 2)) := by
  simp [pop]

@[simp] theorem pushProgramCounter_hardware (site : Site) (s : State) :
    pushProgramCounter hardware site s =
      .ok () (((s.withByte s.sp (lowByte s.pc)).withByte (s.sp + 1) (highByte s.pc)).withSp (s.sp - 2)) :=
  push_hardware site s.pc s

/-- Under `Fault` with every address valid, a two-byte push with SP below 2 writes both bytes, then overflows (R97). -/
theorem push_overflow {c : Config} (hp : c.overflowPolicy = .fault) (hv : ∀ x, c.memValid x = true) {site : Site} {s : State}
    (hs : s.sp.toNat < 2) (v : Word) :
    push c site (leBytes v) s =
      .raised (((s.withByte s.sp (lowByte v)).withByte (s.sp + 1) (highByte v)).raise (site.overflow s.sp (-2))) := by
  have z0 : seq16 c s.sp ((0 : Nat) : Int) = some s.sp := seq16_zero c _
  have z1 : seq16 c s.sp ((0 + 1 : Nat) : Int) = some (s.sp + 1) := by
    rw [seq16_of_range (by omega), ofInt_add]
    rfl
  have z2 : seq16 c s.sp (-((([lowByte v, highByte v] : List Byte).length : Nat) : Int)) = none :=
    seq16_fault hp (by simp only [List.length_cons, List.length_nil]; omega)
  simp only [push, leBytes, writeBytes, writeBytesFrom, seqStep, z0, z1, z2, Res.bind_ok, writeByte, hv, if_true,
    State.withByte_sp]
  rfl

/-- Under `Fault` with every address valid, a two-byte pop at 0xFFFE or above overflows (R98). -/
theorem pop_overflow {c : Config} (hp : c.overflowPolicy = .fault) (hv : ∀ x, c.memValid x = true) {site : Site} {s : State}
    (hs : s.pc.toNat ≥ 0xFFFE) :
    pop c site 2 s = .raised (s.raise (site.overflow s.pc (if s.pc.toNat = 0xFFFF then 1 else 2))) := by
  have z0 : seq16 c s.pc ((0 : Nat) : Int) = some s.pc := seq16_zero c _
  have := s.pc.isLt
  by_cases h : s.pc.toNat = 0xFFFF
  · have z1 : seq16 c s.pc ((0 + 1 : Nat) : Int) = none := seq16_fault hp (by omega)
    rw [if_pos h]
    simp only [pop, readBytes, readBytesFrom, seqStep, z0, z1, Res.bind_ok, readByte, hv, if_true, Res.bind_raised]
    rfl
  · have z1 : seq16 c s.pc ((0 + 1 : Nat) : Int) = some (s.pc + 1) := by
      rw [seq16_of_range (by omega), ofInt_add]
      rfl
    have z2 : seq16 c s.pc ((2 : Nat) : Int) = none := seq16_fault hp (by omega)
    rw [if_neg h]
    simp only [pop, readBytes, readBytesFrom, seqStep, z0, z1, z2, Res.bind_ok, readByte, hv, if_true, Res.bind_raised,
      advancePc]
    rfl

@[simp] theorem jump_eq (target : Word) (s : State) : jump target s = .ok () (s.withPc target) := rfl

@[simp] theorem restart_hardware (site : Site) (vector : Word) (s : State) :
    restart hardware site vector s =
      .ok () ((((s.withByte s.sp (lowByte s.pc)).withByte (s.sp + 1) (highByte s.pc)).withSp (s.sp - 2)).withPc
        vector) := by
  simp [restart]

@[simp] theorem src8_hardware (site : Site) (src : Src8) (s : State) :
    src8 hardware site src s =
      .ok (match src with
        | .reg r => s.reg r
        | .atHL => s.byteAt (s.pair .hl)
        | .imm d8 => d8) s := by
  cases src <;> rfl

@[simp] theorem plain_ok (s : State) : plain (.ok () s) = .ok false s := rfl

@[simp] theorem plain_raised (s : State) : plain (.raised s) = .raised s := rfl

/-! ### Running a behaviour -/

theorem behave_of_ok {c : Config} {i : Instr} {body : Site → State → Res Bool} {s t : State} {taken : Bool}
    (h : body ⟨some i.opcode, s.pc - BitVec.ofNat 16 i.length⟩ s = .ok taken t) :
    behave c i body s = .next (t.withOvr (overrideAfter c i.opcode taken t.ovr)) := by
  simp only [behave, h]

theorem behave_of_raised {c : Config} {i : Instr} {body : Site → State → Res Bool} {s t : State}
    (h : body ⟨some i.opcode, s.pc - BitVec.ofNat 16 i.length⟩ s = .raised t) :
    behave c i body s = .next t := by
  simp only [behave, h]

/-- A behaviour always answers a next state: what its body leaves, with OVR set if it completed. -/
theorem behave_cases (c : Config) (i : Instr) (body : Site → State → Res Bool) (s : State) :
    (∃ taken t, body ⟨some i.opcode, s.pc - BitVec.ofNat 16 i.length⟩ s = .ok taken t ∧
      behave c i body s = .next (t.withOvr (overrideAfter c i.opcode taken t.ovr))) ∨
    (∃ t, body ⟨some i.opcode, s.pc - BitVec.ofNat 16 i.length⟩ s = .raised t ∧ behave c i body s = .next t) := by
  cases h : body ⟨some i.opcode, s.pc - BitVec.ofNat 16 i.length⟩ s with
  | ok taken t => exact .inl ⟨taken, t, rfl, behave_of_ok h⟩
  | raised t => exact .inr ⟨t, rfl, behave_of_raised h⟩

end Sys2Proof.Machine
end

