-- ==== Sys2Proof/Laws/Exec.lean ====
section
/-! SUPPORT. What each instruction does on this hardware, as named updates of the state, one lemma per constructor; and
once, for all instructions and all parameters, what running one can do at all (`execOn_closed`). -/

namespace Sys2Proof.Machine

/-- `exec` is the platform executor on this hardware's parameters. -/
theorem exec_eq_execOn (i : Instr) (s : State) : exec i s = execOn hardware i s := by cases i <;> rfl

theorem exec_nop (s : State) :
    exec .nop s =
      .next ((s).withOvr
        (overrideAfter hardware 0x00 false s.ovr)) := rfl

theorem exec_addHLBC (s : State) :
    exec .addHLBC s =
      .next (((s.withF (add16Flags (s.pair .hl) (s.pair .bc) s.f)).setPair .hl (add16Result (s.pair .hl) (s.pair .bc))).withOvr
        (overrideAfter hardware 0x09 false s.ovr)) := rfl

theorem exec_addHLDE (s : State) :
    exec .addHLDE s =
      .next (((s.withF (add16Flags (s.pair .hl) (s.pair .de) s.f)).setPair .hl (add16Result (s.pair .hl) (s.pair .de))).withOvr
        (overrideAfter hardware 0x19 false s.ovr)) := rfl

theorem exec_addHLHL (s : State) :
    exec .addHLHL s =
      .next (((s.withF (add16Flags (s.pair .hl) (s.pair .hl) s.f)).setPair .hl (add16Result (s.pair .hl) (s.pair .hl))).withOvr
        (overrideAfter hardware 0x29 false s.ovr)) := rfl

theorem exec_addHLSP (s : State) :
    exec .addHLSP s =
      .next (((s.withF (add16Flags (s.pair .hl) (s.sp) s.f)).setPair .hl (add16Result (s.pair .hl) (s.sp))).withOvr
        (overrideAfter hardware 0x39 false s.ovr)) := rfl

theorem exec_jrZ (e8 : Byte) (s : State) :
    exec (.jrZ e8) s =
      .next (if s.f = 0x80 then
          (s.withPc (s.pc + BitVec.ofNat 16 e8.toNat)).withOvr (overrideAfter hardware 0x28 true s.ovr)
        else s.withOvr (overrideAfter hardware 0x28 false s.ovr)) := by
  have p : flagByte [.zero] = 0x80 := by decide
  have o : ∀ taken t, condRelJump hardware [.zero] e8 ⟨some 0x28, s.pc - BitVec.ofNat 16 2⟩ s = .ok taken t →
      exec (.jrZ e8) s = .next (t.withOvr (overrideAfter hardware 0x28 taken t.ovr)) := fun _ _ h =>
    behave_of_ok (c := hardware) (i := .jrZ e8) (body := condRelJump hardware [.zero] e8) h
  split
  · exact o _ _ (by rw [condRelJump, p, if_pos ‹_›]; simp)
  · exact o _ _ (by rw [condRelJump, p, if_neg ‹_›])

theorem exec_jrC (e8 : Byte) (s : State) :
    exec (.jrC e8) s =
      .next (if s.f = 0x10 then
          (s.withPc (s.pc + BitVec.ofNat 16 e8.toNat)).withOvr (overrideAfter hardware 0x38 true s.ovr)
        else s.withOvr (overrideAfter hardware 0x38 false s.ovr)) := by
  have p : flagByte [.carry] = 0x10 := by decide
  have o : ∀ taken t, condRelJump hardware [.carry] e8 ⟨some 0x38, s.pc - BitVec.ofNat 16 2⟩ s = .ok taken t →
      exec (.jrC e8) s = .next (t.withOvr (overrideAfter hardware 0x38 taken t.ovr)) := fun _ _ h =>
    behave_of_ok (c := hardware) (i := .jrC e8) (body := condRelJump hardware [.carry] e8) h
  split
  · exact o _ _ (by rw [condRelJump, p, if_pos ‹_›]; simp)
  · exact o _ _ (by rw [condRelJump, p, if_neg ‹_›])

theorem exec_ldAd8 (d8 : Byte) (s : State) :
    exec (.ldAd8 d8) s =
      .next ((s.withA d8).withOvr
        (overrideAfter hardware 0x3E false s.ovr)) := rfl

theorem exec_sbcAB (s : State) :
    exec .sbcAB s =
      .next ((s.withF (sbcFlags s.a s.b s.f)).withOvr
        (overrideAfter hardware 0x98 false s.ovr)) := rfl

theorem exec_sbcAC (s : State) :
    exec .sbcAC s =
      .next ((s.withF (sbcFlags s.a s.c s.f)).withOvr
        (overrideAfter hardware 0x99 false s.ovr)) := rfl

theorem exec_sbcAD (s : State) :
    exec .sbcAD s =
      .next ((s.withF (sbcFlags s.a s.d s.f)).withOvr
        (overrideAfter hardware 0x9A false s.ovr)) := rfl

theorem exec_sbcAE (s : State) :
    exec .sbcAE s =
      .next ((s.withF (sbcFlags s.a s.e s.f)).withOvr
        (overrideAfter hardware 0x9B false s.ovr)) := rfl

theorem exec_sbcAH (s : State) :
    exec .sbcAH s =
      .next ((s.withF (sbcFlags s.a s.h s.f)).withOvr
        (overrideAfter hardware 0x9C false s.ovr)) := rfl

theorem exec_sbcAL (s : State) :
    exec .sbcAL s =
      .next ((s.withF (sbcFlags s.a s.l s.f)).withOvr
        (overrideAfter hardware 0x9D false s.ovr)) := rfl

theorem exec_sbcAAtHL (s : State) :
    exec .sbcAAtHL s =
      .next ((s.withF (sbcFlags s.a (s.byteAt (s.pair .hl)) s.f)).withOvr
        (overrideAfter hardware 0x9E false s.ovr)) := rfl

theorem exec_sbcAA (s : State) :
    exec .sbcAA s =
      .next ((s.withF (sbcFlags s.a s.a s.f)).withOvr
        (overrideAfter hardware 0x9F false s.ovr)) := rfl

theorem exec_sbcAd8 (d8 : Byte) (s : State) :
    exec (.sbcAd8 d8) s =
      .next ((s.withF (sbcFlags s.a d8 s.f)).withOvr
        (overrideAfter hardware 0xDE false s.ovr)) := rfl

theorem exec_xorB (s : State) :
    exec .xorB s =
      .next (((s.withA (s.a ^^^ s.b)).withF (xorFlags (s.a ^^^ s.b))).withOvr
        (overrideAfter hardware 0xA8 false s.ovr)) := rfl

theorem exec_xorC (s : State) :
    exec .xorC s =
      .next (((s.withA (s.a ^^^ s.c)).withF (xorFlags (s.a ^^^ s.c))).withOvr
        (overrideAfter hardware 0xA9 false s.ovr)) := rfl

theorem exec_xorD (s : State) :
    exec .xorD s =
      .next (((s.withA (s.a ^^^ s.d)).withF (xorFlags (s.a ^^^ s.d))).withOvr
        (overrideAfter hardware 0xAA false s.ovr)) := rfl

theorem exec_xorE (s : State) :
    exec .xorE s =
      .next (((s.withA (s.a ^^^ s.e)).withF (xorFlags (s.a ^^^ s.e))).withOvr
        (overrideAfter hardware 0xAB false s.ovr)) := rfl

theorem exec_xorH (s : State) :
    exec .xorH s =
      .next (((s.withA (s.a ^^^ s.h)).withF (xorFlags (s.a ^^^ s.h))).withOvr
        (overrideAfter hardware 0xAC false s.ovr)) := rfl

theorem exec_xorL (s : State) :
    exec .xorL s =
      .next (((s.withA (s.a ^^^ s.l)).withF (xorFlags (s.a ^^^ s.l))).withOvr
        (overrideAfter hardware 0xAD false s.ovr)) := rfl

theorem exec_xorAtHL (s : State) :
    exec .xorAtHL s =
      .next (((s.withA (s.a ^^^ (s.byteAt (s.pair .hl)))).withF (xorFlags (s.a ^^^ (s.byteAt (s.pair .hl))))).withOvr
        (overrideAfter hardware 0xAE false s.ovr)) := rfl

theorem exec_xorA (s : State) :
    exec .xorA s =
      .next (((s.withA (s.a ^^^ s.a)).withF (xorFlags (s.a ^^^ s.a))).withOvr
        (overrideAfter hardware 0xAF false s.ovr)) := rfl

theorem exec_xord8 (d8 : Byte) (s : State) :
    exec (.xord8 d8) s =
      .next (((s.withA (s.a ^^^ d8)).withF (xorFlags (s.a ^^^ d8))).withOvr
        (overrideAfter hardware 0xEE false s.ovr)) := rfl

theorem exec_cpB (s : State) :
    exec .cpB s =
      .next ((s.withF (cpFlags .preserve s.a s.b s.f)).withOvr
        (overrideAfter hardware 0xB8 false s.ovr)) := rfl

theorem exec_cpC (s : State) :
    exec .cpC s =
      .next ((s.withF (cpFlags .preserve s.a s.c s.f)).withOvr
        (overrideAfter hardware 0xB9 false s.ovr)) := rfl

theorem exec_cpD (s : State) :
    exec .cpD s =
      .next ((s.withF (cpFlags .preserve s.a s.d s.f)).withOvr
        (overrideAfter hardware 0xBA false s.ovr)) := rfl

theorem exec_cpE (s : State) :
    exec .cpE s =
      .next ((s.withF (cpFlags .preserve s.a s.e s.f)).withOvr
        (overrideAfter hardware 0xBB false s.ovr)) := rfl

theorem exec_cpH (s : State) :
    exec .cpH s =
      .next ((s.withF (cpFlags .preserve s.a s.h s.f)).withOvr
        (overrideAfter hardware 0xBC false s.ovr)) := rfl

theorem exec_cpL (s : State) :
    exec .cpL s =
      .next ((s.withF (cpFlags .preserve s.a s.l s.f)).withOvr
        (overrideAfter hardware 0xBD false s.ovr)) := rfl

theorem exec_cpAtHL (s : State) :
    exec .cpAtHL s =
      .next ((s.withF (cpFlags .preserve s.a (s.byteAt (s.pair .hl)) s.f)).withOvr
        (overrideAfter hardware 0xBE false s.ovr)) := rfl

theorem exec_cpA (s : State) :
    exec .cpA s =
      .next ((s.withF (cpFlags .preserve s.a s.a s.f)).withOvr
        (overrideAfter hardware 0xBF false s.ovr)) := rfl

theorem exec_cpd8 (d8 : Byte) (s : State) :
    exec (.cpd8 d8) s =
      .next ((s.withF (cpFlags .preserve s.a d8 s.f)).withOvr
        (overrideAfter hardware 0xFE false s.ovr)) := rfl

theorem exec_jpA16 (a16 : Word) (s : State) :
    exec (.jpA16 a16) s =
      .next ((s.withPc a16).withOvr
        (overrideAfter hardware 0xC3 false s.ovr)) := rfl

theorem exec_callA16 (a16 : Word) (s : State) :
    exec (.callA16 a16) s =
      .next (((((s.withByte s.sp (lowByte (s.pc))).withByte (s.sp + 1) (highByte (s.pc))).withSp (s.sp - 2)).withPc a16).withOvr
        (overrideAfter hardware 0xCD false s.ovr)) := 
  behave_of_ok (c := hardware) (i := (.callA16 a16)) (body := (call hardware a16))
    (by simp [call])

theorem exec_ret (s : State) :
    exec .ret s =
      .next ((s.withPc (word (s.byteAt (s.pc + 1)) (s.byteAt s.pc))).withOvr
        (overrideAfter hardware 0xC9 false s.ovr)) := 
  behave_of_ok (c := hardware) (i := .ret) (body := (ret hardware))
    (by simp [ret, leWord])

theorem exec_rst00 (s : State) :
    exec .rst00 s =
      .next (((((s.withByte s.sp (lowByte (s.pc))).withByte (s.sp + 1) (highByte (s.pc))).withSp (s.sp - 2)).withPc 0x0000).withOvr
        (overrideAfter hardware 0xC7 false s.ovr)) := 
  behave_of_ok (c := hardware) (i := .rst00) (body := (fun site s => plain (restart hardware site (rstVector 0) s)))
    (by simp [rstVector])

theorem exec_rst08 (s : State) :
    exec .rst08 s =
      .next (((((s.withByte s.sp (lowByte (s.pc))).withByte (s.sp + 1) (highByte (s.pc))).withSp (s.sp - 2)).withPc 0x0008).withOvr
        (overrideAfter hardware 0xCF false s.ovr)) := 
  behave_of_ok (c := hardware) (i := .rst08) (body := (fun site s => plain (restart hardware site (rstVector 1) s)))
    (by simp [rstVector])

theorem exec_rst10 (s : State) :
    exec .rst10 s =
      .next (((((s.withByte s.sp (lowByte (s.pc))).withByte (s.sp + 1) (highByte (s.pc))).withSp (s.sp - 2)).withPc 0x0010).withOvr
        (overrideAfter hardware 0xD7 false s.ovr)) := 
  behave_of_ok (c := hardware) (i := .rst10) (body := (fun site s => plain (restart hardware site (rstVector 2) s)))
    (by simp [rstVector])

theorem exec_rst18 (s : State) :
    exec .rst18 s =
      .next (((((s.withByte s.sp (lowByte (s.pc))).withByte (s.sp + 1) (highByte (s.pc))).withSp (s.sp - 2)).withPc 0x0018).withOvr
        (overrideAfter hardware 0xDF false s.ovr)) := 
  behave_of_ok (c := hardware) (i := .rst18) (body := (fun site s => plain (restart hardware site (rstVector 3) s)))
    (by simp [rstVector])

theorem exec_rst20 (s : State) :
    exec .rst20 s =
      .next (((((s.withByte s.sp (lowByte (s.pc))).withByte (s.sp + 1) (highByte (s.pc))).withSp (s.sp - 2)).withPc 0x0020).withOvr
        (overrideAfter hardware 0xE7 false s.ovr)) := 
  behave_of_ok (c := hardware) (i := .rst20) (body := (fun site s => plain (restart hardware site (rstVector 4) s)))
    (by simp [rstVector])

theorem exec_rst28 (s : State) :
    exec .rst28 s =
      .next (((((s.withByte s.sp (lowByte (s.pc))).withByte (s.sp + 1) (highByte (s.pc))).withSp (s.sp - 2)).withPc 0x0028).withOvr
        (overrideAfter hardware 0xEF false s.ovr)) := 
  behave_of_ok (c := hardware) (i := .rst28) (body := (fun site s => plain (restart hardware site (rstVector 5) s)))
    (by simp [rstVector])

theorem exec_rst30 (s : State) :
    exec .rst30 s =
      .next (((((s.withByte s.sp (lowByte (s.pc))).withByte (s.sp + 1) (highByte (s.pc))).withSp (s.sp - 2)).withPc 0x0030).withOvr
        (overrideAfter hardware 0xF7 false s.ovr)) := 
  behave_of_ok (c := hardware) (i := .rst30) (body := (fun site s => plain (restart hardware site (rstVector 6) s)))
    (by simp [rstVector])

theorem exec_rst38 (s : State) :
    exec .rst38 s =
      .next (((((s.withByte s.sp (lowByte (s.pc))).withByte (s.sp + 1) (highByte (s.pc))).withSp (s.sp - 2)).withPc 0x0038).withOvr
        (overrideAfter hardware 0xFF false s.ovr)) := 
  behave_of_ok (c := hardware) (i := .rst38) (body := (fun site s => plain (restart hardware site (rstVector 7) s)))
    (by simp [rstVector])

theorem exec_pushBC (s : State) :
    exec .pushBC s =
      .next ((((s.withByte s.sp (lowByte (s.pair .bc))).withByte (s.sp + 1) (highByte (s.pair .bc))).withSp (s.sp - 2)).withOvr
        (overrideAfter hardware 0xC5 false s.ovr)) := 
  behave_of_ok (c := hardware) (i := .pushBC) (body := (pushPair hardware .bc))
    (by simp [pushPair])

theorem exec_pushDE (s : State) :
    exec .pushDE s =
      .next ((((s.withByte s.sp (lowByte (s.pair .de))).withByte (s.sp + 1) (highByte (s.pair .de))).withSp (s.sp - 2)).withOvr
        (overrideAfter hardware 0xD5 false s.ovr)) := 
  behave_of_ok (c := hardware) (i := .pushDE) (body := (pushPair hardware .de))
    (by simp [pushPair])

theorem exec_pushHL (s : State) :
    exec .pushHL s =
      .next ((((s.withByte s.sp (lowByte (s.pair .hl))).withByte (s.sp + 1) (highByte (s.pair .hl))).withSp (s.sp - 2)).withOvr
        (overrideAfter hardware 0xE5 false s.ovr)) := 
  behave_of_ok (c := hardware) (i := .pushHL) (body := (pushPair hardware .hl))
    (by simp [pushPair])

theorem exec_popBC (s : State) :
    exec .popBC s =
      .next (((s.withPc (s.pc + 2)).setPair .bc (word (s.byteAt (s.pc + 1)) (s.byteAt s.pc))).withOvr
        (overrideAfter hardware 0xC1 false s.ovr)) := 
  behave_of_ok (c := hardware) (i := .popBC) (body := (popPair hardware .bc))
    (by simp [popPair, leWord])

theorem exec_popDE (s : State) :
    exec .popDE s =
      .next (((s.withPc (s.pc + 2)).setPair .de (word (s.byteAt (s.pc + 1)) (s.byteAt s.pc))).withOvr
        (overrideAfter hardware 0xD1 false s.ovr)) := 
  behave_of_ok (c := hardware) (i := .popDE) (body := (popPair hardware .de))
    (by simp [popPair, leWord])

theorem exec_popHL (s : State) :
    exec .popHL s =
      .next (((s.withPc (s.pc + 2)).setPair .hl (word (s.byteAt (s.pc + 1)) (s.byteAt s.pc))).withOvr
        (overrideAfter hardware 0xE1 false s.ovr)) := 
  behave_of_ok (c := hardware) (i := .popHL) (body := (popPair hardware .hl))
    (by simp [popPair, leWord])

theorem exec_unimplemented (op : Byte) (s : State) :
    exec (.unimplemented op) s = .next (s.raise ⟨.unimplementedOpcode, some op, s.pc, none, none⟩) := rfl

/-! ### What running an instruction can do, on any parameters -/

/-- A property of states that every update a behaviour makes keeps (40_execute_loop.md R73): registers, PC, SP, OVR and
memory to any value, `F` to a byte whose unused bits are what they were or zero, `FAULT` to a record of 60_exceptions.md
R113 of the two kinds a behaviour can raise. `CLK` is not among them. -/
structure Closed (P : State → Prop) : Prop where
  withPc : ∀ s v, P s → P (s.withPc v)
  withSp : ∀ s v, P s → P (s.withSp v)
  withOvr : ∀ s v, P s → P (s.withOvr v)
  setReg : ∀ s r v, P s → P (s.setReg r v)
  withByte : ∀ s a v, P s → P (s.withByte a v)
  withF : ∀ s v, v &&& 0x0F = s.f &&& 0x0F ∨ v &&& 0x0F = 0 → P s → P (s.withF v)
  raise : ∀ s r, r.kind ≠ .unimplementedOpcode → r.legal = true → P s → P (s.raise r)

theorem Site.overflow_legal {op : Byte} {p x : Word} {k : Int} : (Site.overflow ⟨some op, p⟩ x k).legal = true := rfl

theorem Site.outOfBounds_legal {site : Site} {a : Word} : (site.outOfBounds a).legal = true := rfl

/-- Where a closed property's operations raise: it still holds, and `FAULT` is set. -/
def Raised (P : State → Prop) (s : State) : Prop := P s ∧ s.fault.isSome = true

section
variable {P : State → Prop} (h : Closed P) {c : Config} {op : Byte} {p : Word} {s : State}
include h

theorem Closed.setPair {q : Pair} {v : Word} (hs : P s) : P (s.setPair q v) := h.setReg _ _ _ (h.setReg _ _ _ hs)

theorem Closed.seqStep {x : Word} {k : Int} (hs : P s) :
    (seqStep c ⟨some op, p⟩ x k s).Meets (fun _ s' => s' = s) (Raised P) := by
  rcases seqStep_cases c ⟨some op, p⟩ x k s with ⟨y, -, e⟩ | ⟨-, e⟩ <;> rw [e]
  · exact .ok rfl
  · exact .raised ⟨h.raise _ _ (by simp [Site.overflow]) Site.overflow_legal hs, rfl⟩

theorem Closed.readByte {site : Site} {a : Word} (hs : P s) :
    (readByte c site a s).Meets (fun v s' => v = s.byteAt a ∧ s' = s) (Raised P) := by
  unfold Machine.readByte
  split
  · exact .ok ⟨rfl, rfl⟩
  · exact .raised ⟨h.raise _ _ (by simp [Site.outOfBounds]) Site.outOfBounds_legal hs, rfl⟩

theorem Closed.writeByte {site : Site} {a : Word} {v : Byte} (hs : P s) :
    (writeByte c site a v s).Meets (fun _ s' => P s') (Raised P) := by
  unfold Machine.writeByte
  split
  · exact .ok (h.withByte _ _ _ hs)
  · exact .raised ⟨h.raise _ _ (by simp [Site.outOfBounds]) Site.outOfBounds_legal hs, rfl⟩

theorem Closed.advancePc {k : Int} (hs : P s) : (advancePc c ⟨some op, p⟩ k s).Meets (fun _ s' => P s') (Raised P) :=
  (h.seqStep hs).bind fun _ _ e => by subst e; exact .ok (h.withPc _ _ hs)

theorem Closed.readBytesFrom {a : Word} {i n : Nat} (hs : P s) :
    (readBytesFrom c ⟨some op, p⟩ a i n s).Meets (fun _ s' => s' = s) (Raised P) := by
  induction n generalizing i with
  | zero => exact .ok rfl
  | succ n ih =>
    exact (h.seqStep hs).bind fun _ _ e => by
      subst e
      exact (h.readByte hs).bind fun _ _ e => by
        rw [e.2]
        exact ih.bind fun _ _ e => .ok e

theorem Closed.writeBytesFrom {a : Word} {i : Nat} {vs : List Byte} (hs : P s) :
    (writeBytesFrom c ⟨some op, p⟩ a i vs s).Meets (fun _ s' => P s') (Raised P) := by
  induction vs generalizing i s with
  | nil => exact .ok hs
  | cons v vs ih =>
    exact (h.seqStep hs).bind fun _ _ e => by
      subst e
      exact (h.writeByte hs).bind fun _ _ hs => ih hs

theorem Closed.readWord {a : Word} (hs : P s) : (readWord c ⟨some op, p⟩ a s).Meets (fun _ s' => s' = s) (Raised P) :=
  (h.readBytesFrom hs).bind fun _ _ e => .ok e

theorem Closed.push {vs : List Byte} (hs : P s) : (push c ⟨some op, p⟩ vs s).Meets (fun _ s' => P s') (Raised P) :=
  (h.writeBytesFrom hs).bind fun _ _ hs =>
    (h.seqStep hs).bind fun _ _ e => by subst e; exact .ok (h.withSp _ _ hs)

theorem Closed.pop {n : Nat} (hs : P s) : (pop c ⟨some op, p⟩ n s).Meets (fun _ s' => P s') (Raised P) :=
  (h.readBytesFrom hs).bind fun _ _ e => by
    subst e
    exact (h.advancePc hs).bind fun _ _ hs => .ok hs

theorem Closed.src8 {src : Src8} (hs : P s) : (src8 c ⟨some op, p⟩ src s).Meets (fun _ s' => s' = s) (Raised P) := by
  cases src with
  | reg r => exact .ok rfl
  | atHL => exact (h.readByte hs).imp (fun _ _ e => e.2) fun _ hs => hs
  | imm d8 => exact .ok rfl

omit h in
theorem Closed.plain {r : Res Unit} (hr : r.Meets (fun _ s' => P s') (Raised P)) :
    (plain r).Meets (fun _ s' => P s') (Raised P) := hr.bind fun _ _ hs => .ok hs

theorem Closed.sbc {src : Src8} (hs : P s) : (sbc c src ⟨some op, p⟩ s).Meets (fun _ s' => P s') (Raised P) :=
  (h.src8 hs).bind fun _ _ e => by subst e; exact .ok (h.withF _ _ (.inl (by simp)) hs)

theorem Closed.cp {src : Src8} (hs : P s) : (cp c src ⟨some op, p⟩ s).Meets (fun _ s' => P s') (Raised P) :=
  (h.src8 hs).bind fun _ _ e => by subst e; exact .ok (h.withF _ _ (.inl (by simp)) hs)

theorem Closed.xor {src : Src8} (hs : P s) : (xorWith c src ⟨some op, p⟩ s).Meets (fun _ s' => P s') (Raised P) :=
  (h.src8 hs).bind fun _ _ e => by
    subst e
    exact .ok (h.withF _ _ (.inr (by simp)) (h.setReg _ .a _ hs))

theorem Closed.addHL {x : Addend} (hs : P s) : (addHL x ⟨some op, p⟩ s).Meets (fun _ s' => P s') (Raised P) :=
  .ok (h.setPair (h.withF _ _ (.inl (by simp)) hs))

theorem Closed.condRelJump {fs : List Flag} {e8 : Byte} (hs : P s) :
    (condRelJump c fs e8 ⟨some op, p⟩ s).Meets (fun _ s' => P s') (Raised P) := by
  unfold Machine.condRelJump
  split
  · exact (h.advancePc hs).bind fun _ _ hs => .ok hs
  · exact .ok hs

theorem Closed.jump {target : Word} (hs : P s) : (jump target s).Meets (fun _ s' => P s') (Raised P) := .ok (h.withPc _ _ hs)

theorem Closed.restart {v : Word} (hs : P s) : (restart c ⟨some op, p⟩ v s).Meets (fun _ s' => P s') (Raised P) :=
  (h.push hs).bind fun _ _ hs => h.jump hs

theorem Closed.behave {i : Instr} {body : Site → State → Res Bool}
    (hb : ∀ p, (body ⟨some i.opcode, p⟩ s).Meets (fun _ s' => P s') (Raised P)) : ∃ t, behave c i body s = .next t ∧ P t := by
  have hb := hb (s.pc - BitVec.ofNat 16 i.length)
  rcases behave_cases c i body s with ⟨taken, t, e, en⟩ | ⟨t, e, en⟩ <;> rw [e] at hb
  · exact ⟨_, en, h.withOvr _ _ (Res.meets_ok.1 hb)⟩
  · exact ⟨_, en, (Res.meets_raised.1 hb).1⟩

/-- An admitted instruction answers a next state on any parameters, and keeps every closed property (R73). -/
theorem execOn_closed {i : Instr} (hs : P s) (hi : ∀ op, i ≠ .unimplemented op) :
    ∃ t, execOn c i s = .next t ∧ P t := by
  cases i with
  | unimplemented op => exact absurd rfl (hi op)
  | nop => exact h.behave (i := .nop) (body := (fun _ s => .ok false s)) (fun _ => .ok hs)
  | addHLBC => exact h.behave (i := .addHLBC) (body := (addHL (.pair .bc))) (fun _ => h.addHL hs)
  | addHLDE => exact h.behave (i := .addHLDE) (body := (addHL (.pair .de))) (fun _ => h.addHL hs)
  | addHLHL => exact h.behave (i := .addHLHL) (body := (addHL (.pair .hl))) (fun _ => h.addHL hs)
  | addHLSP => exact h.behave (i := .addHLSP) (body := (addHL .sp)) (fun _ => h.addHL hs)
  | jrZ e8 => exact h.behave (i := .jrZ e8) (body := (condRelJump c [.zero] e8)) (fun _ => h.condRelJump hs)
  | jrC e8 => exact h.behave (i := .jrC e8) (body := (condRelJump c [.carry] e8)) (fun _ => h.condRelJump hs)
  | ldAd8 d8 => exact h.behave (i := .ldAd8 d8) (body := (fun _ s => .ok false (s.withA d8))) (fun _ => .ok (h.setReg _ .a _ hs))
  | sbcAB => exact h.behave (i := .sbcAB) (body := (sbc c (.reg .b))) (fun _ => h.sbc hs)
  | sbcAC => exact h.behave (i := .sbcAC) (body := (sbc c (.reg .c))) (fun _ => h.sbc hs)
  | sbcAD => exact h.behave (i := .sbcAD) (body := (sbc c (.reg .d))) (fun _ => h.sbc hs)
  | sbcAE => exact h.behave (i := .sbcAE) (body := (sbc c (.reg .e))) (fun _ => h.sbc hs)
  | sbcAH => exact h.behave (i := .sbcAH) (body := (sbc c (.reg .h))) (fun _ => h.sbc hs)
  | sbcAL => exact h.behave (i := .sbcAL) (body := (sbc c (.reg .l))) (fun _ => h.sbc hs)
  | sbcAAtHL => exact h.behave (i := .sbcAAtHL) (body := (sbc c .atHL)) (fun _ => h.sbc hs)
  | sbcAA => exact h.behave (i := .sbcAA) (body := (sbc c (.reg .a))) (fun _ => h.sbc hs)
  | sbcAd8 d8 => exact h.behave (i := .sbcAd8 d8) (body := (sbc c (.imm d8))) (fun _ => h.sbc hs)
  | xorB => exact h.behave (i := .xorB) (body := (xorWith c (.reg .b))) (fun _ => h.xor hs)
  | xorC => exact h.behave (i := .xorC) (body := (xorWith c (.reg .c))) (fun _ => h.xor hs)
  | xorD => exact h.behave (i := .xorD) (body := (xorWith c (.reg .d))) (fun _ => h.xor hs)
  | xorE => exact h.behave (i := .xorE) (body := (xorWith c (.reg .e))) (fun _ => h.xor hs)
  | xorH => exact h.behave (i := .xorH) (body := (xorWith c (.reg .h))) (fun _ => h.xor hs)
  | xorL => exact h.behave (i := .xorL) (body := (xorWith c (.reg .l))) (fun _ => h.xor hs)
  | xorAtHL => exact h.behave (i := .xorAtHL) (body := (xorWith c .atHL)) (fun _ => h.xor hs)
  | xorA => exact h.behave (i := .xorA) (body := (xorWith c (.reg .a))) (fun _ => h.xor hs)
  | xord8 d8 => exact h.behave (i := .xord8 d8) (body := (xorWith c (.imm d8))) (fun _ => h.xor hs)
  | cpB => exact h.behave (i := .cpB) (body := (cp c (.reg .b))) (fun _ => h.cp hs)
  | cpC => exact h.behave (i := .cpC) (body := (cp c (.reg .c))) (fun _ => h.cp hs)
  | cpD => exact h.behave (i := .cpD) (body := (cp c (.reg .d))) (fun _ => h.cp hs)
  | cpE => exact h.behave (i := .cpE) (body := (cp c (.reg .e))) (fun _ => h.cp hs)
  | cpH => exact h.behave (i := .cpH) (body := (cp c (.reg .h))) (fun _ => h.cp hs)
  | cpL => exact h.behave (i := .cpL) (body := (cp c (.reg .l))) (fun _ => h.cp hs)
  | cpAtHL => exact h.behave (i := .cpAtHL) (body := (cp c .atHL)) (fun _ => h.cp hs)
  | cpA => exact h.behave (i := .cpA) (body := (cp c (.reg .a))) (fun _ => h.cp hs)
  | cpd8 d8 => exact h.behave (i := .cpd8 d8) (body := (cp c (.imm d8))) (fun _ => h.cp hs)
  | jpA16 a16 => exact h.behave (i := .jpA16 a16) (body := (fun _ s => plain (jump a16 s))) (fun _ => Closed.plain (h.jump hs))
  | callA16 a16 => exact h.behave (i := .callA16 a16) (body := (call c a16)) (fun _ => Closed.plain (h.restart hs))
  | ret => exact h.behave (i := .ret) (body := (ret c)) (fun _ => Closed.plain ((h.pop hs).bind fun _ _ hs => h.jump hs))
  | rst00 => exact h.behave (i := .rst00) (body := (fun site s => plain (restart c site (rstVector 0) s))) (fun _ => Closed.plain (h.restart hs))
  | rst08 => exact h.behave (i := .rst08) (body := (fun site s => plain (restart c site (rstVector 1) s))) (fun _ => Closed.plain (h.restart hs))
  | rst10 => exact h.behave (i := .rst10) (body := (fun site s => plain (restart c site (rstVector 2) s))) (fun _ => Closed.plain (h.restart hs))
  | rst18 => exact h.behave (i := .rst18) (body := (fun site s => plain (restart c site (rstVector 3) s))) (fun _ => Closed.plain (h.restart hs))
  | rst20 => exact h.behave (i := .rst20) (body := (fun site s => plain (restart c site (rstVector 4) s))) (fun _ => Closed.plain (h.restart hs))
  | rst28 => exact h.behave (i := .rst28) (body := (fun site s => plain (restart c site (rstVector 5) s))) (fun _ => Closed.plain (h.restart hs))
  | rst30 => exact h.behave (i := .rst30) (body := (fun site s => plain (restart c site (rstVector 6) s))) (fun _ => Closed.plain (h.restart hs))
  | rst38 => exact h.behave (i := .rst38) (body := (fun site s => plain (restart c site (rstVector 7) s))) (fun _ => Closed.plain (h.restart hs))
  | pushBC => exact h.behave (i := .pushBC) (body := (pushPair c .bc)) (fun _ => Closed.plain (h.push hs))
  | pushDE => exact h.behave (i := .pushDE) (body := (pushPair c .de)) (fun _ => Closed.plain (h.push hs))
  | pushHL => exact h.behave (i := .pushHL) (body := (pushPair c .hl)) (fun _ => Closed.plain (h.push hs))
  | popBC => exact h.behave (i := .popBC) (body := (popPair c .bc)) (fun _ => (h.pop hs).bind fun _ _ hs => .ok (h.setPair hs))
  | popDE => exact h.behave (i := .popDE) (body := (popPair c .de)) (fun _ => (h.pop hs).bind fun _ _ hs => .ok (h.setPair hs))
  | popHL => exact h.behave (i := .popHL) (body := (popPair c .hl)) (fun _ => (h.pop hs).bind fun _ _ hs => .ok (h.setPair hs))

end

end Sys2Proof.Machine
end

