-- ==== Sys2Proof/Laws/PerInstr.lean ====
section
/-! SUPPORT. Statements about every instruction as syntax, one lemma per constructor (LAWS.json). -/

namespace Sys2Proof.Laws.EncodingLength

/-- 30_encoding.md R47: an instruction is its opcode byte and at most two operand bytes. -/
def Statement (i : Instr) : Prop :=
  i.encode.head? = some i.opcode ∧ i.length = 1 + i.operandBytes.length ∧ i.operandBytes.length ≤ 2

/-- It holds of every instruction. -/
theorem statement_holds (i : Instr) : Statement i := by
  refine ⟨rfl, ?_, ?_⟩
  · simp only [Instr.length, Instr.encode, List.length_cons]
    omega
  · cases i <;> simp [Instr.operandBytes, leBytes]

theorem nop : Statement .nop := statement_holds _

theorem addHLBC : Statement .addHLBC := statement_holds _

theorem addHLDE : Statement .addHLDE := statement_holds _

theorem addHLHL : Statement .addHLHL := statement_holds _

theorem addHLSP : Statement .addHLSP := statement_holds _

theorem jrZ (e8 : Byte) : Statement (.jrZ e8) := statement_holds _

theorem jrC (e8 : Byte) : Statement (.jrC e8) := statement_holds _

theorem ldAd8 (d8 : Byte) : Statement (.ldAd8 d8) := statement_holds _

theorem sbcAB : Statement .sbcAB := statement_holds _

theorem sbcAC : Statement .sbcAC := statement_holds _

theorem sbcAD : Statement .sbcAD := statement_holds _

theorem sbcAE : Statement .sbcAE := statement_holds _

theorem sbcAH : Statement .sbcAH := statement_holds _

theorem sbcAL : Statement .sbcAL := statement_holds _

theorem sbcAAtHL : Statement .sbcAAtHL := statement_holds _

theorem sbcAA : Statement .sbcAA := statement_holds _

theorem sbcAd8 (d8 : Byte) : Statement (.sbcAd8 d8) := statement_holds _

theorem xorB : Statement .xorB := statement_holds _

theorem xorC : Statement .xorC := statement_holds _

theorem xorD : Statement .xorD := statement_holds _

theorem xorE : Statement .xorE := statement_holds _

theorem xorH : Statement .xorH := statement_holds _

theorem xorL : Statement .xorL := statement_holds _

theorem xorAtHL : Statement .xorAtHL := statement_holds _

theorem xorA : Statement .xorA := statement_holds _

theorem xord8 (d8 : Byte) : Statement (.xord8 d8) := statement_holds _

theorem cpB : Statement .cpB := statement_holds _

theorem cpC : Statement .cpC := statement_holds _

theorem cpD : Statement .cpD := statement_holds _

theorem cpE : Statement .cpE := statement_holds _

theorem cpH : Statement .cpH := statement_holds _

theorem cpL : Statement .cpL := statement_holds _

theorem cpAtHL : Statement .cpAtHL := statement_holds _

theorem cpA : Statement .cpA := statement_holds _

theorem cpd8 (d8 : Byte) : Statement (.cpd8 d8) := statement_holds _

theorem jpA16 (a16 : Word) : Statement (.jpA16 a16) := statement_holds _

theorem callA16 (a16 : Word) : Statement (.callA16 a16) := statement_holds _

theorem ret : Statement .ret := statement_holds _

theorem rst00 : Statement .rst00 := statement_holds _

theorem rst08 : Statement .rst08 := statement_holds _

theorem rst10 : Statement .rst10 := statement_holds _

theorem rst18 : Statement .rst18 := statement_holds _

theorem rst20 : Statement .rst20 := statement_holds _

theorem rst28 : Statement .rst28 := statement_holds _

theorem rst30 : Statement .rst30 := statement_holds _

theorem rst38 : Statement .rst38 := statement_holds _

theorem pushBC : Statement .pushBC := statement_holds _

theorem pushDE : Statement .pushDE := statement_holds _

theorem pushHL : Statement .pushHL := statement_holds _

theorem popBC : Statement .popBC := statement_holds _

theorem popDE : Statement .popDE := statement_holds _

theorem popHL : Statement .popHL := statement_holds _

theorem unimplemented (op : Byte) : Statement (.unimplemented op) := statement_holds _

end Sys2Proof.Laws.EncodingLength
end

