-- ==== Sys2Proof/Laws/Step.lean ====
section
/-! SUPPORT. The step (40_execute_loop.md R63): what fetching leaves, what a step is made of, and what one step can do at
all on any parameters. -/

namespace Sys2Proof.Machine

/-! ### Fetching on this hardware -/

/-- Steps 1 to 6 on this hardware, by the entry of the byte at PC. -/
theorem fetchDecode_hardware (s : State) :
    fetchDecode hardware s =
      match dispatchTable (s.byteAt s.pc) with
      | none => .ok (.unimplemented (s.byteAt s.pc)) s
      | some ⟨_, .f0 i⟩ => .ok i ((s.withPc (s.pc + 1)).withOvr 0)
      | some ⟨_, .f1 mk⟩ => .ok (mk (s.byteAt (s.pc + 1))) ((s.withPc (s.pc + 2)).withOvr 0)
      | some ⟨_, .f2 mk⟩ =>
        .ok (mk (word (s.byteAt (s.pc + 2)) (s.byteAt (s.pc + 1)))) ((s.withPc (s.pc + 3)).withOvr 0) := by
  simp only [fetchDecode, readByte_hardware, Res.bind_ok]
  rcases dispatchTable (s.byteAt s.pc) with _ | ⟨n, i | mk | mk⟩
  · rfl
  · simp [prepare, readOperand, Form.oplen]
  · simp [prepare, readOperand, Form.oplen, BitVec.add_assoc]
  · simp [prepare, readOperand, Form.oplen, BitVec.add_assoc]

/-! ### What a step is made of -/

theorem stepWith_of_fault {c : Config} {ex : Instr → State → Host.Outcome State Fault Refusal} {s : State}
    {r : FaultRecord} (h : s.fault = some r) : stepWith c ex s = .fault (.stopped r) := by
  simp only [stepWith, h]

theorem stepWith_of_raised {c : Config} {ex : Instr → State → Host.Outcome State Fault Refusal} {s t : State}
    (h : s.fault = none) (hf : fetchDecode c s = .raised t) : stepWith c ex s = .next t := by
  simp only [stepWith, h, hf]

theorem stepWith_of_next {c : Config} {ex : Instr → State → Host.Outcome State Fault Refusal} {s s' t : State}
    {i : Instr} (h : s.fault = none) (hf : fetchDecode c s = .ok i s') (he : ex i s' = .next t) :
    stepWith c ex s = .next (accountUnlessFaulted c i.opcode t) := by
  simp only [stepWith, h, hf, he]

theorem accountUnlessFaulted_none {c : Config} {op : Byte} {t : State} (h : t.fault = none) :
    accountUnlessFaulted c op t = t.withClk (t.clk + stepCost c op t.ovr) := by
  simp only [accountUnlessFaulted, h, account]

theorem accountUnlessFaulted_some {c : Config} {op : Byte} {t : State} {r : FaultRecord} (h : t.fault = some r) :
    accountUnlessFaulted c op t = t := by
  simp only [accountUnlessFaulted, h]

@[simp] theorem accountUnlessFaulted_fault (c : Config) (op : Byte) (t : State) :
    (accountUnlessFaulted c op t).fault = t.fault := by
  cases h : t.fault with
  | none => rw [accountUnlessFaulted_none h]; exact h
  | some r => rw [accountUnlessFaulted_some h]; exact h

/-- The step of this hardware is the platform step on its parameters. -/
theorem step_eq_stepOn (s : State) : step s = stepOn hardware s := by
  have e : exec = execOn hardware := funext fun i => funext fun s => exec_eq_execOn i s
  rw [step, stepOn, e]

/-! ### What one step can do, on any parameters -/

section
variable {P : State → Prop} (h : Closed P) {c : Config} {s : State}
include h

theorem Closed.readOperand {op : Byte} {p : Word} {form : Form} (hb : form.Builds op) (hs : P s) :
    (readOperand c ⟨some op, p⟩ form s).Meets
      (fun i s' => s' = s ∧ i.opcode = op ∧ i.wellFormed = true ∧ ∀ op, i ≠ .unimplemented op) (Raised P) := by
  cases form with
  | f0 i =>
    obtain ⟨e, w, n⟩ := hb
    exact .ok ⟨rfl, (List.cons.inj e).1, w, n⟩
  | f1 mk =>
    exact (h.readByte hs).bind fun v _ e => by
      obtain ⟨b, w, n⟩ := hb v
      exact .ok ⟨e.2, (List.cons.inj b).1, w, n⟩
  | f2 mk =>
    exact (h.readWord hs).bind fun v _ e => by
      obtain ⟨b, w, n⟩ := hb v
      exact .ok ⟨e, (List.cons.inj b).1, w, n⟩

/-- Steps 1 to 6 give an instruction whose opcode is the byte at PC, or raise a fault; either way a closed property
holds. An opcode without a behaviour leaves the state as it was (40_execute_loop.md R65). -/
theorem Closed.fetchDecode (hs : P s) :
    (fetchDecode c s).Meets
      (fun i s' => i.opcode = s.byteAt s.pc ∧ i.wellFormed = true ∧ P s' ∧ ∀ op, i = .unimplemented op → s' = s) (Raised P) := by
  refine (h.readByte hs).bind fun v t e => ?_
  obtain ⟨rfl, rfl⟩ := e
  cases d : dispatchTable (t.byteAt t.pc) with
  | none => exact .ok ⟨rfl, by simpa [Instr.wellFormed] using (dispatchTable_eq_none _).1 d, hs, fun _ _ => rfl⟩
  | some e =>
    refine (h.advancePc hs).bind fun _ s1 h1 => ?_
    refine (h.readOperand (dispatchTable_builds d) h1).bind fun i s2 h2 => ?_
    obtain ⟨rfl, o, w, n⟩ := h2
    exact (h.advancePc h1).bind fun _ s3 h3 => .ok ⟨o, w, h.withOvr _ _ h3, fun op e => absurd e (n op)⟩

/-- One step from a state with no fault: it raised while fetching; or it found no behaviour, and only `FAULT` changed; or
it ran an admitted instruction and accounted its cost unless that raised. -/
theorem Closed.stepOn (hs : P s) (hf : s.fault = none) :
    ∃ t, P t ∧
      (stepOn c s = .next t ∧ t.fault.isSome = true ∨
       stepOn c s = .next (s.raise ⟨.unimplementedOpcode, some (s.byteAt s.pc), s.pc, none, none⟩) ∧
        admittedOpcodes.contains (s.byteAt s.pc) = false ∧ t = s ∨
       stepOn c s = .next (accountUnlessFaulted c (s.byteAt s.pc) t)) := by
  have m := h.fetchDecode (c := c) hs
  cases fd : Machine.fetchDecode c s with
  | raised t =>
    rw [fd] at m
    have r := Res.meets_raised.1 m
    exact ⟨t, r.1, .inl ⟨stepWith_of_raised hf fd, r.2⟩⟩
  | ok i s' =>
    rw [fd] at m
    obtain ⟨o, w, h', u⟩ := Res.meets_ok.1 m
    by_cases hi : ∀ op, i ≠ .unimplemented op
    · obtain ⟨t, e, ht⟩ := execOn_closed h (c := c) h' hi
      exact ⟨t, ht, .inr (.inr (by rw [← o]; exact stepWith_of_next hf fd e))⟩
    · obtain ⟨op, hi⟩ : ∃ op, i = .unimplemented op := by simpa using hi
      have e := u op hi
      subst hi e
      simp only [Instr.opcode] at o
      subst o
      refine ⟨s', hs, .inr (.inl ⟨?_, by simpa [Instr.wellFormed] using w, rfl⟩)⟩
      exact stepWith_of_next (ex := execOn c) (t := s'.raise ⟨.unimplementedOpcode, some (s'.byteAt s'.pc), s'.pc, none, none⟩)
        hf fd rfl

end

/-- What a step does to a property that behaviours, raising and accounting all keep. -/
theorem stepOn_keeps {P : State → Prop} (h : Closed P)
    (hu : ∀ s, admittedOpcodes.contains (s.byteAt s.pc) = false → P s →
      P (s.raise ⟨.unimplementedOpcode, some (s.byteAt s.pc), s.pc, none, none⟩))
    (hc : ∀ s v, P s → P (s.withClk v)) {c : Config} {s t : State} (hs : P s) (e : stepOn c s = .next t) : P t := by
  cases hf : s.fault with
  | some r => rw [show stepOn c s = _ from stepWith_of_fault hf] at e; cases e
  | none =>
    obtain ⟨t', ht, ⟨e', -⟩ | ⟨e', n, -⟩ | e'⟩ := h.stepOn (c := c) hs hf <;> rw [e] at e' <;> cases e'
    · exact ht
    · exact hu s n hs
    · cases k : t'.fault with
      | none => rw [accountUnlessFaulted_none k]; exact hc _ _ ht
      | some r => rw [accountUnlessFaulted_some k]; exact ht

/-! ### Closed properties -/

/-- A canonical memory stays canonical. -/
theorem closed_wf : Closed fun s => s.mem.wf = true where
  withPc _ _ hs := hs
  withSp _ _ hs := hs
  withOvr _ _ hs := hs
  setReg s r v hs := by simpa using hs
  withByte _ _ _ hs := State.wf_withByte hs
  withF _ _ _ hs := hs
  raise _ _ _ _ hs := hs

/-- The unused bits of `F` stay zero (42_alu_flags.md R80). -/
theorem closed_unused : Closed fun s => s.f &&& 0x0F = 0 where
  withPc _ _ hs := hs
  withSp _ _ hs := hs
  withOvr _ _ hs := hs
  setReg s r v hs := by simpa using hs
  withByte _ _ _ hs := hs
  withF s v hv hs := by
    rcases hv with e | e
    · exact e.trans hs
    · exact e
  raise _ _ _ _ hs := hs

/-- `FAULT` holds none or a record of 60_exceptions.md R113's shape. -/
theorem closed_legal : Closed fun s => s.fault.all FaultRecord.legal = true where
  withPc _ _ hs := hs
  withSp _ _ hs := hs
  withOvr _ _ hs := hs
  setReg s r v hs := by simpa using hs
  withByte _ _ _ hs := hs
  withF _ _ _ hs := hs
  raise _ _ _ hr _ := by simpa using hr

/-- No behaviour writes the clock (R73). -/
theorem closed_clk (k : Word) : Closed fun s => s.clk = k where
  withPc _ _ hs := hs
  withSp _ _ hs := hs
  withOvr _ _ hs := hs
  setReg s r v hs := by simpa using hs
  withByte _ _ _ hs := hs
  withF _ _ _ hs := hs
  raise _ _ _ _ hs := hs

/-- Closed properties hold together. -/
theorem Closed.and {P Q : State → Prop} (h : Closed P) (k : Closed Q) : Closed fun s => P s ∧ Q s where
  withPc s v hs := ⟨h.withPc s v hs.1, k.withPc s v hs.2⟩
  withSp s v hs := ⟨h.withSp s v hs.1, k.withSp s v hs.2⟩
  withOvr s v hs := ⟨h.withOvr s v hs.1, k.withOvr s v hs.2⟩
  setReg s r v hs := ⟨h.setReg s r v hs.1, k.setReg s r v hs.2⟩
  withByte s a v hs := ⟨h.withByte s a v hs.1, k.withByte s a v hs.2⟩
  withF s v hv hs := ⟨h.withF s v hv hs.1, k.withF s v hv hs.2⟩
  raise s r hk hr hs := ⟨h.raise s r hk hr hs.1, k.raise s r hk hr hs.2⟩

/-- A run of one more step: the step, then the rest of the run. -/
theorem runOn_succ (c : Config) (n : Nat) (s : State) :
    runOn c (n + 1) s = match stepOn c s with
      | .next t => runOn c n t
      | .fault r => .fault r
      | .refused r => .refused r := by
  simp only [runOn, Host.Core.run, coreOn]
  cases stepOn c s <;> rfl

end Sys2Proof.Machine
end

