-- ==== Sys2Proof/Tests/Slice0.lean ====
section
/-! SUPPORT. Tests of the model. Expected values are the spec's own: 95_test_vectors.md by row name (N1, A1, …), else worked
out by hand from the rule the test names. Then one witness for each statement that has hypotheses. -/

namespace Sys2Proof.Tests

open Sys2Proof Sys2Proof.Machine

/-! ### Helpers -/

/-- `s` with PC at `pc` and these bytes from there upward, wrapping at the top. -/
def put (pc : Word) (bs : List Byte) (s : State) : State := placeAt { s with pc := pc } pc bs

/-- The outcome is a next state of which `p` holds. -/
def ends (o : Host.Outcome State Fault Refusal) (p : State → Bool) : Bool :=
  match o with
  | .next t => p t
  | .fault _ => false
  | .refused _ => false

/-- There is a next state. -/
def answers (o : Host.Outcome State Fault Refusal) : Bool := ends o fun _ => true

/-- The bytes decode to the instruction, with none left over. -/
def decodes (p : List Byte × Instr) : Bool :=
  match decode p.1 with
  | .ok (i, rest) => decide (i = p.2) && rest.isEmpty
  | .error _ => false

/-- The reference costs under `OVERFLOW_POLICY = Fault`. -/
def faultPolicy : Config := { referenceCosts with overflowPolicy := .fault }

/-- The reference costs under `CP_UNFIRED = Clear`. -/
def clearPolicy : Config := { referenceCosts with cpUnfired := .clear }

/-- The reference costs with `MEM_VALID(a) = (a < 0x8000)`. -/
def smallMemory : Config := { referenceCosts with memValid := fun a => decide (a.toNat < 0x8000) }

/-- The reference costs with `MEM_VALID(a) = (a >= 0x8000)`. -/
def highMemory : Config := { referenceCosts with memValid := fun a => decide (0x8000 ≤ a.toNat) }

/-! ### Well-formedness -/

/-- 30_encoding.md R57: no admitted byte is an unimplemented instruction. -/
theorem test_wellFormed_refuses_nop : (Instr.unimplemented 0x00).wellFormed = false := by decide

/-- 30_encoding.md R57, at the top of the opcode space. -/
theorem test_wellFormed_refuses_rst38 : (Instr.unimplemented 0xFF).wellFormed = false := by decide

/-- 30_encoding.md R58: the prefix byte is one of the 204. -/
theorem test_wellFormed_accepts_prefix : (Instr.unimplemented 0xCB).wellFormed = true := by decide

/-! ### Decoding: every constructor's word, written out from 30_encoding.md -/

/-- R56: the bytes with no field; R49 for the word's byte order. -/
theorem test_decode_fixed :
    [([0b00000000], Instr.nop), ([0b00111110, 0x5A], .ldAd8 0x5A), ([0b11000011, 0x34, 0x12], .jpA16 0x1234),
     ([0b11001101, 0xCD, 0xAB], .callA16 0xABCD), ([0b11001001], .ret), ([0b11011110, 0x01], .sbcAd8 0x01),
     ([0b11101110, 0x02], .xord8 0x02), ([0b11111110, 0x03], .cpd8 0x03)].all decodes = true := by decide

/-- R51: `00 rr 1001`. -/
theorem test_decode_add :
    [([0b00_00_1001], Instr.addHLBC), ([0b00_01_1001], .addHLDE), ([0b00_10_1001], .addHLHL),
     ([0b00_11_1001], .addHLSP)].all decodes = true := by decide

/-- R50: `10011 rrr`. -/
theorem test_decode_sbc :
    [([0b10011_000], Instr.sbcAB), ([0b10011_001], .sbcAC), ([0b10011_010], .sbcAD), ([0b10011_011], .sbcAE),
     ([0b10011_100], .sbcAH), ([0b10011_101], .sbcAL), ([0b10011_110], .sbcAAtHL),
     ([0b10011_111], .sbcAA)].all decodes = true := by decide

/-- R50: `10101 rrr`. -/
theorem test_decode_xor :
    [([0b10101_000], Instr.xorB), ([0b10101_001], .xorC), ([0b10101_010], .xorD), ([0b10101_011], .xorE),
     ([0b10101_100], .xorH), ([0b10101_101], .xorL), ([0b10101_110], .xorAtHL),
     ([0b10101_111], .xorA)].all decodes = true := by decide

/-- R50: `10111 rrr`. -/
theorem test_decode_cp :
    [([0b10111_000], Instr.cpB), ([0b10111_001], .cpC), ([0b10111_010], .cpD), ([0b10111_011], .cpE),
     ([0b10111_100], .cpH), ([0b10111_101], .cpL), ([0b10111_110], .cpAtHL),
     ([0b10111_111], .cpA)].all decodes = true := by decide

/-- R54: the two condition encodings. -/
theorem test_decode_jr :
    [([0b001_01_000, 0xFE], Instr.jrZ 0xFE), ([0b001_11_000, 0x10], .jrC 0x10)].all decodes = true := by decide

/-- R53: `11 ttt 111`. -/
theorem test_decode_rst :
    [([0b11_000_111], Instr.rst00), ([0b11_001_111], .rst08), ([0b11_010_111], .rst10), ([0b11_011_111], .rst18),
     ([0b11_100_111], .rst20), ([0b11_101_111], .rst28), ([0b11_110_111], .rst30),
     ([0b11_111_111], .rst38)].all decodes = true := by decide

/-- R52: `11 qq 0101` and `11 qq 0001`. -/
theorem test_decode_push_pop :
    [([0b11_00_0101], Instr.pushBC), ([0b11_01_0101], .pushDE), ([0b11_10_0101], .pushHL),
     ([0b11_00_0001], .popBC), ([0b11_01_0001], .popDE), ([0b11_10_0001], .popHL)].all decodes = true := by decide

/-- R52, R57, R58: the prefix byte, the two AF forms and `JR NZ` have no behaviour. -/
theorem test_decode_unimplemented :
    [([0xCB], Instr.unimplemented 0xCB), ([0b11_11_0101], .unimplemented 0xF5), ([0b11_11_0001], .unimplemented 0xF1),
     ([0x20], .unimplemented 0x20)].all decodes = true := by decide

/-- 30_encoding.md R49: an operand that is cut off is refused by name. -/
theorem test_decode_truncated : (decode [0xC3, 0x34]).isOk = false ∧ (decode []).isOk = false := by decide

/-- Table bit 8 is bit 0 of the second byte. -/
theorem test_decodeTableWord :
    decodeTableWord 24 0x1234C3 = some (.jpA16 0x1234) ∧ decodeTableWord 8 0xFF3E = some (.ldAd8 0x00) := by decide

/-- 30_encoding.md R61: 255 above is the farthest label, and none is below. -/
theorem test_labelOffset :
    labelOffset 0x0111 0x0012 = some 0xFF ∧ labelOffset 0x0112 0x0012 = none ∧ labelOffset 0x0011 0x0012 = none := by decide

/-! ### Memory, launch, placing an instruction -/

/-- 20_memory.md R38 with the canonical form: storing what an unlisted address reads as removes the cell. -/
theorem test_memory_canonical :
    writeCell (writeCell (writeCell [] 5 1) 3 2) 5 0x00 = [(3, 2)] ∧ Memory.wf (writeCell (writeCell [] 5 1) 3 2) = true ∧
    Memory.wf [(5, 1), (3, 2)] = false ∧ Memory.wf [(3, 0x00)] = false ∧ Memory.wf [(65536, 1)] = false := by decide

/-- 20_memory.md R46: the image from 0x0000 over `INIT_MEM`. -/
theorem test_launch :
    ends (launch [(1, 0x77), (2, 0x88)] [0x3E, 0x05]) (fun t => t.mem == [(0, 0x3E), (1, 0x05), (2, 0x88)] && t.pc == 0) =
      true := by decide

/-- The word placed at PC is what the next step runs: `CALL 0x1234` from reset. -/
theorem test_withFetchWord :
    ends (step (State.reset.withFetchWord 24 0x1234CD)) (fun t => t.pc == 0x1234 && t.sp == 0xFFFE) = true := by decide

/-! ### One step of each instruction -/

/-- N1 -/
theorem test_nop :
    ends (stepOn referenceCosts (put 0x0003 [0x00] { State.reset with clk := 12 }))
      (fun t => t.pc == 0x0004 && t.clk == 16 && t.f == 0 && t.fault.isNone) = true := by decide

/-- F3 -/
theorem test_nop_top_fault :
    ends (stepOn faultPolicy (put 0xFFFF [0x00] State.reset))
      (fun t => t.pc == 0xFFFF && t.clk == 0 &&
        t.fault == some ⟨.addressOverflow, some 0x00, 0xFFFF, some 0xFFFF, some 1⟩) = true := by decide

/-- N3 -/
theorem test_ldAd8_flags :
    ends (step (put 0x0000 [0x3E, 0x00] { State.reset with f := 0x80, a := 0x11 }))
      (fun t => t.a == 0x00 && t.f == 0x80 && t.pc == 0x0002) = true := by decide

/-- N4 -/
theorem test_ldAd8_wraps :
    ends (stepOn referenceCosts (put 0xFFFF [0x3E, 0x77] State.reset))
      (fun t => t.a == 0x77 && t.pc == 0x0001 && t.clk == 8) = true := by decide

/-- A1, 90_conflicts.md C1 -/
theorem test_addHLBC :
    ends (step (put 0x0000 [0x09] { State.reset with h := 0xFF, b := 0x01 }))
      (fun t => t.h == 0x00 && t.l == 0x01 && t.f == 0x00 && t.pc == 0x0001) = true := by decide

/-- A8 -/
theorem test_addHLBC_flags :
    ends (step (put 0x0000 [0x09] { State.reset with h := 0x01, b := 0x01, f := 0xF0 }))
      (fun t => t.h == 0x02 && t.f == 0x80) = true := by decide

/-- A3 -/
theorem test_addHLDE :
    ends (step (put 0x0000 [0x19] { State.reset with d := 0x08 }))
      (fun t => t.h == 0x08 && t.l == 0x00 && t.f == 0x20) = true := by decide

/-- A4 -/
theorem test_addHLDE_bit3 :
    ends (step (put 0x0000 [0x19] { State.reset with h := 0x0F, d := 0x01 }))
      (fun t => t.h == 0x10 && t.f == 0x00) = true := by decide

/-- A5 -/
theorem test_addHLHL :
    ends (step (put 0x0000 [0x29] { State.reset with l := 0x80 }))
      (fun t => t.h == 0x00 && t.l == 0x00 && t.f == 0x10) = true := by decide

/-- A6 -/
theorem test_addHLHL_flags :
    ends (step (put 0x0000 [0x29] { State.reset with h := 0x08, f := 0x80 }))
      (fun t => t.h == 0x10 && t.f == 0x80) = true := by decide

/-- A7 -/
theorem test_addHLSP :
    ends (step (put 0x0000 [0x39] { State.reset with h := 0x34, l := 0x12, sp := 0xFFFE }))
      (fun t => t.h == 0x32 && t.l == 0x12 && t.f == 0x30 && t.sp == 0xFFFE) = true := by decide

/-- S1 -/
theorem test_sbcAB :
    ends (step (put 0x0000 [0x98] { State.reset with a := 0x10, b := 0x01 }))
      (fun t => t.f == 0x60 && t.a == 0x10) = true := by decide

/-- S2 -/
theorem test_sbcAC :
    ends (step (put 0x0000 [0x99] { State.reset with a := 0x00, c := 0xFF }))
      (fun t => t.f == 0x70 && t.a == 0x00) = true := by decide

/-- S3 -/
theorem test_sbcAA :
    ends (step (put 0x0000 [0x9F] { State.reset with a := 0x37, f := 0x10 }))
      (fun t => t.f == 0xC0 && t.a == 0x37) = true := by decide

/-- S4 -/
theorem test_sbcAD :
    ends (step (put 0x0000 [0x9A] { State.reset with a := 0x3C, d := 0x3C }))
      (fun t => t.f == 0xC0 && t.a == 0x3C) = true := by decide

/-- S5 -/
theorem test_sbcAE :
    ends (step (put 0x0000 [0x9B] { State.reset with a := 0x3C, e := 0x2D }))
      (fun t => t.f == 0x60 && t.a == 0x3C) = true := by decide

/-- 42_alu_flags.md R84: 0x31 > 0x20 and 1 > 0 -/
theorem test_sbcAH :
    ends (step (put 0x0000 [0x9C] { State.reset with a := 0x20, h := 0x31 }))
      (fun t => t.f == 0x70 && t.a == 0x20) = true := by decide

/-- 42_alu_flags.md R84: 0x13 < 0x20 and 3 > 0 -/
theorem test_sbcAL :
    ends (step (put 0x0000 [0x9D] { State.reset with a := 0x20, l := 0x13 }))
      (fun t => t.f == 0x60 && t.a == 0x20) = true := by decide

/-- S6 -/
theorem test_sbcAAtHL :
    ends (step ((put 0x0000 [0x9E] { State.reset with a := 0x22, l := 0xC0 }).withByte 0xC000 0x22))
      (fun t => t.f == 0xC0 && t.a == 0x22) = true := by decide

/-- S7 -/
theorem test_sbcAd8 :
    ends (step (put 0x0000 [0xDE, 0x10] { State.reset with a := 0x05 }))
      (fun t => t.f == 0x50 && t.pc == 0x0002) = true := by decide

/-- S8 -/
theorem test_sbcAd8_flags :
    ends (step (put 0x0000 [0xDE, 0x00] { State.reset with a := 0xF0, f := 0xB0 }))
      (fun t => t.f == 0x40 && t.a == 0xF0) = true := by decide

/-- X1 -/
theorem test_xorB :
    ends (step (put 0x0000 [0xA8] { State.reset with a := 0xAA, b := 0xAA, f := 0x70 }))
      (fun t => t.a == 0x00 && t.f == 0x80) = true := by decide

/-- X2 -/
theorem test_xorC :
    ends (step (put 0x0000 [0xA9] { State.reset with a := 0xFF, c := 0x0F, f := 0xF0 }))
      (fun t => t.a == 0xF0 && t.f == 0x00) = true := by decide

/-- 42_alu_flags.md R88: 0x0F ^ 0xF0 = 0xFF -/
theorem test_xorD :
    ends (step (put 0x0000 [0xAA] { State.reset with a := 0x0F, d := 0xF0 }))
      (fun t => t.a == 0xFF && t.f == 0x00) = true := by decide

/-- 42_alu_flags.md R88: 0x3C ^ 0x3C = 0 -/
theorem test_xorE :
    ends (step (put 0x0000 [0xAB] { State.reset with a := 0x3C, e := 0x3C }))
      (fun t => t.a == 0x00 && t.f == 0x80) = true := by decide

/-- 42_alu_flags.md R88: 0x01 ^ 0x03 = 0x02 -/
theorem test_xorH :
    ends (step (put 0x0000 [0xAC] { State.reset with a := 0x01, h := 0x03 }))
      (fun t => t.a == 0x02 && t.f == 0x00) = true := by decide

/-- 42_alu_flags.md R88: 0x80 ^ 0x01 = 0x81 -/
theorem test_xorL :
    ends (step (put 0x0000 [0xAD] { State.reset with a := 0x80, l := 0x01 }))
      (fun t => t.a == 0x81 && t.f == 0x00) = true := by decide

/-- X3 -/
theorem test_xorA :
    ends (step (put 0x0000 [0xAF] { State.reset with a := 0x5A, f := 0x30 }))
      (fun t => t.a == 0x00 && t.f == 0x80) = true := by decide

/-- X4 -/
theorem test_xorAtHL :
    ends (step ((put 0x0000 [0xAE] { State.reset with a := 0xFF, h := 0x34, l := 0x12 }).withByte 0x1234 0x0F))
      (fun t => t.a == 0xF0 && t.f == 0x00) = true := by decide

/-- X5 -/
theorem test_xord8 :
    ends (step (put 0x0000 [0xEE, 0x55] { State.reset with a := 0xAA }))
      (fun t => t.a == 0xFF && t.f == 0x00 && t.pc == 0x0002) = true := by decide

/-- X6 -/
theorem test_xord8_zero :
    ends (step (put 0x0000 [0xEE, 0x00] { State.reset with a := 0x00, f := 0x50 }))
      (fun t => t.a == 0x00 && t.f == 0x80) = true := by decide

/-- C8 under Preserve -/
theorem test_cpB_preserve :
    ends (step (put 0x0000 [0xB8] { State.reset with a := 0x05, b := 0x10, f := 0x80 }))
      (fun t => t.f == 0xD0 && t.a == 0x05) = true := by decide

/-- C8 under Clear -/
theorem test_cpB_clear :
    ends (stepOn clearPolicy (put 0x0000 [0xB8] { State.reset with a := 0x05, b := 0x10, f := 0x80 }))
      (fun t => t.f == 0x50 && t.a == 0x05) = true := by decide

/-- C3 -/
theorem test_cpC :
    ends (step (put 0x0000 [0xB9] { State.reset with a := 0x15, c := 0x0F }))
      (fun t => t.f == 0x60 && t.a == 0x15) = true := by decide

/-- C4 -/
theorem test_cpD :
    ends (step (put 0x0000 [0xBA] { State.reset with a := 0x05, d := 0x1F }))
      (fun t => t.f == 0x50 && t.a == 0x05) = true := by decide

/-- C5 -/
theorem test_cpE :
    ends (step (put 0x0000 [0xBB] { State.reset with a := 0x35, e := 0x21 }))
      (fun t => t.f == 0x40 && t.a == 0x35) = true := by decide

/-- 42_alu_flags.md R92: 0x05 < 0x10 -/
theorem test_cpH :
    ends (step (put 0x0000 [0xBC] { State.reset with a := 0x05, h := 0x10 }))
      (fun t => t.f == 0x50 && t.a == 0x05) = true := by decide

/-- 42_alu_flags.md R92: 0x0F < 0x15, 15 > 5 -/
theorem test_cpL :
    ends (step (put 0x0000 [0xBD] { State.reset with a := 0x15, l := 0x0F }))
      (fun t => t.f == 0x60 && t.a == 0x15) = true := by decide

/-- C9 under Preserve -/
theorem test_cpA :
    ends (step (put 0x0000 [0xBF] { State.reset with a := 0x42, f := 0x30 }))
      (fun t => t.f == 0xF0 && t.a == 0x42) = true := by decide

/-- C9 under Clear -/
theorem test_cpA_clear :
    ends (stepOn clearPolicy (put 0x0000 [0xBF] { State.reset with a := 0x42, f := 0x30 }))
      (fun t => t.f == 0xC0 && t.a == 0x42) = true := by decide

/-- C6 -/
theorem test_cpAtHL :
    ends (step ((put 0x0000 [0xBE] { State.reset with a := 0x10, l := 0xC0 }).withByte 0xC000 0x10))
      (fun t => t.f == 0xC0 && t.a == 0x10) = true := by decide

/-- C7 -/
theorem test_cpd8 :
    ends (step (put 0x0000 [0xFE, 0x10] { State.reset with a := 0x10 }))
      (fun t => t.f == 0xC0 && t.pc == 0x0002) = true := by decide

/-- J2 -/
theorem test_jrZ_whole_byte :
    ends (stepOn referenceCosts (put 0x0010 [0x28, 0x05] { State.reset with f := 0xC0 }))
      (fun t => t.pc == 0x0012 && t.clk == 8 && t.f == 0xC0) = true := by decide

/-- J3, K2 -/
theorem test_jrZ_taken :
    ends (stepOn referenceCosts (put 0x0010 [0x28, 0xFE] { State.reset with f := 0x80 }))
      (fun t => t.pc == 0x0110 && t.clk == 12) = true := by decide

/-- J8 under Wrap -/
theorem test_jrC_wraps :
    ends (step (put 0xFFF0 [0x38, 0x20] { State.reset with f := 0x10 }))
      (fun t => t.pc == 0x0012) = true := by decide

/-- J8 under Fault -/
theorem test_jrC_overflows :
    ends (stepOn faultPolicy (put 0xFFF0 [0x38, 0x20] { State.reset with f := 0x10 }))
      (fun t => t.pc == 0xFFF2 && t.clk == 0 &&
        t.fault == some ⟨.addressOverflow, some 0x38, 0xFFF0, some 0xFFF2, some 32⟩) = true := by decide

/-- T2 under Wrap -/
theorem test_jpA16_wraps :
    ends (step (put 0xFFFE [0xC3, 0x34, 0x12] State.reset))
      (fun t => t.pc == 0x1234) = true := by decide

/-- T2 under Fault -/
theorem test_jpA16_overflows :
    ends (stepOn faultPolicy (put 0xFFFE [0xC3, 0x34, 0x12] State.reset))
      (fun t => t.pc == 0xFFFF &&
        t.fault == some ⟨.addressOverflow, some 0xC3, 0xFFFE, some 0xFFFF, some 1⟩) = true := by decide

/-- T3 -/
theorem test_callA16 :
    ends (stepOn referenceCosts (put 0x0100 [0xCD, 0x34, 0x12] { State.reset with sp := 0xFFFE }))
      (fun t => t.byteAt 0xFFFE == 0x03 && t.byteAt 0xFFFF == 0x01 && t.sp == 0xFFFC && t.pc == 0x1234 &&
        t.clk == 24) = true := by decide

/-- T4 under Fault -/
theorem test_callA16_overflows :
    ends (stepOn faultPolicy (put 0x0100 [0xCD, 0x34, 0x12] { State.reset with sp := 0x0001 }))
      (fun t => t.byteAt 0x0001 == 0x03 && t.byteAt 0x0002 == 0x01 && t.sp == 0x0001 && t.pc == 0x0103 &&
        t.fault == some ⟨.addressOverflow, some 0xCD, 0x0100, some 0x0001, some (-2)⟩) = true := by decide

/-- T5 -/
theorem test_ret :
    ends (step (put 0x1234 [0xC9, 0x00, 0x20] { State.reset with sp := 0xFFFC }))
      (fun t => t.pc == 0x2000 && t.sp == 0xFFFC) = true := by decide

/-- T6 under Wrap -/
theorem test_ret_wraps :
    ends (step (put 0xFFFE [0xC9, 0x34, 0x00] State.reset))
      (fun t => t.pc == 0x0034) = true := by decide

/-- 43_control_stack.md R108, as T7 with vector 0x00 -/
theorem test_rst00 :
    ends (step (put 0x0200 [0xC7] { State.reset with sp := 0xD000 }))
      (fun t => t.byteAt 0xD000 == 0x01 && t.byteAt 0xD001 == 0x02 && t.sp == 0xCFFE && t.pc == 0x0000) = true := by decide

/-- T8 -/
theorem test_rst08 :
    ends (step (put 0x0050 [0xCF] { State.reset with sp := 0xC000 }))
      (fun t => t.byteAt 0xC000 == 0x51 && t.byteAt 0xC001 == 0x00 && t.sp == 0xBFFE && t.pc == 0x0008) = true := by decide

/-- 43_control_stack.md R108, as T7 with vector 0x10 -/
theorem test_rst10 :
    ends (step (put 0x0200 [0xD7] { State.reset with sp := 0xD000 }))
      (fun t => t.byteAt 0xD000 == 0x01 && t.byteAt 0xD001 == 0x02 && t.sp == 0xCFFE && t.pc == 0x0010) = true := by decide

/-- 43_control_stack.md R108, as T7 with vector 0x18 -/
theorem test_rst18 :
    ends (step (put 0x0200 [0xDF] { State.reset with sp := 0xD000 }))
      (fun t => t.byteAt 0xD000 == 0x01 && t.byteAt 0xD001 == 0x02 && t.sp == 0xCFFE && t.pc == 0x0018) = true := by decide

/-- 43_control_stack.md R108, as T7 with vector 0x20 -/
theorem test_rst20 :
    ends (step (put 0x0200 [0xE7] { State.reset with sp := 0xD000 }))
      (fun t => t.byteAt 0xD000 == 0x01 && t.byteAt 0xD001 == 0x02 && t.sp == 0xCFFE && t.pc == 0x0020) = true := by decide

/-- 43_control_stack.md R108, as T7 with vector 0x28 -/
theorem test_rst28 :
    ends (step (put 0x0200 [0xEF] { State.reset with sp := 0xD000 }))
      (fun t => t.byteAt 0xD000 == 0x01 && t.byteAt 0xD001 == 0x02 && t.sp == 0xCFFE && t.pc == 0x0028) = true := by decide

/-- 43_control_stack.md R108, as T7 with vector 0x30 -/
theorem test_rst30 :
    ends (step (put 0x0200 [0xF7] { State.reset with sp := 0xD000 }))
      (fun t => t.byteAt 0xD000 == 0x01 && t.byteAt 0xD001 == 0x02 && t.sp == 0xCFFE && t.pc == 0x0030) = true := by decide

/-- T7 -/
theorem test_rst38 :
    ends (step (put 0x0200 [0xFF] { State.reset with sp := 0xD000 }))
      (fun t => t.byteAt 0xD000 == 0x01 && t.byteAt 0xD001 == 0x02 && t.sp == 0xCFFE && t.pc == 0x0038) = true := by decide

/-- T9 -/
theorem test_pushBC :
    ends (step (put 0x0000 [0xC5] { State.reset with b := 0x12, c := 0x34, sp := 0xD000 }))
      (fun t => t.byteAt 0xD000 == 0x12 && t.byteAt 0xD001 == 0x34 && t.sp == 0xCFFE && t.pc == 0x0001) = true := by decide

/-- 43_control_stack.md R109, as T9 -/
theorem test_pushDE :
    ends (step (put 0x0000 [0xD5] { State.reset with d := 0x56, e := 0x78, sp := 0xD000 }))
      (fun t => t.byteAt 0xD000 == 0x56 && t.byteAt 0xD001 == 0x78 && t.sp == 0xCFFE) = true := by decide

/-- T10 under Wrap -/
theorem test_pushHL_wraps :
    ends (step (put 0x0000 [0xE5] { State.reset with h := 0xAB, l := 0xCD }))
      (fun t => t.byteAt 0x0000 == 0xAB && t.byteAt 0x0001 == 0xCD && t.sp == 0xFFFE && t.pc == 0x0001) = true := by decide

/-- T10 under Fault -/
theorem test_pushHL_overflows :
    ends (stepOn faultPolicy (put 0x0000 [0xE5] { State.reset with h := 0xAB, l := 0xCD }))
      (fun t => t.byteAt 0x0000 == 0xAB && t.byteAt 0x0001 == 0xCD && t.sp == 0x0000 && t.fault.isSome) = true := by decide

/-- 43_control_stack.md R110, as T11 -/
theorem test_popBC :
    ends (step (put 0x0300 [0xC1, 0x11, 0x22] { State.reset with sp := 0xFFFE }))
      (fun t => t.b == 0x11 && t.c == 0x22 && t.pc == 0x0303 && t.sp == 0xFFFE) = true := by decide

/-- T11 -/
theorem test_popDE :
    ends (step (put 0x0300 [0xD1, 0xAA, 0xBB] { State.reset with sp := 0xFFFE }))
      (fun t => t.d == 0xAA && t.e == 0xBB && t.pc == 0x0303 && t.sp == 0xFFFE) = true := by decide

/-- T12 -/
theorem test_popHL :
    ends (step (put 0x0300 [0xE1, 0x00, 0xC0] State.reset))
      (fun t => t.h == 0x00 && t.l == 0xC0 && t.pc == 0x0303) = true := by decide

/-- 43_control_stack.md R106, R108: SP = 0xFFFF under Fault -/
theorem test_rst38_second_write_overflows :
    ends (stepOn faultPolicy (put 0x0200 [0xFF] { State.reset with sp := 0xFFFF }))
      (fun t => t.byteAt 0xFFFF == 0x01 && t.byteAt 0x0000 == 0x00 && t.sp == 0xFFFF && t.pc == 0x0201 &&
        t.fault == some ⟨.addressOverflow, some 0xFF, 0x0200, some 0xFFFF, some 1⟩) = true := by decide

/-- 43_control_stack.md R110: the second read at an invalid address -/
theorem test_popBC_invalid :
    ends (stepOn smallMemory (put 0x7FFE [0xC1, 0x11] { State.reset with b := 0x55 }))
      (fun t => t.b == 0x55 && t.pc == 0x7FFF &&
        t.fault == some ⟨.memoryOutOfBounds, some 0xC1, 0x7FFE, some 0x8000, none⟩) = true := by decide

/-- F1, K3 -/
theorem test_unimplemented_prefix :
    ends (step (put 0x0040 [0xCB, 0x37] { State.reset with clk := 5 }))
      (fun t => t.pc == 0x0040 && t.clk == 5 &&
        t.fault == some ⟨.unimplementedOpcode, some 0xCB, 0x0040, none, none⟩) = true := by decide

/-- F2 -/
theorem test_unimplemented_jrNZ :
    ends (step (put 0x0040 [0x20, 0x05] State.reset))
      (fun t => t.pc == 0x0040 &&
        t.fault == some ⟨.unimplementedOpcode, some 0x20, 0x0040, none, none⟩) = true := by decide

/-! ### Witnesses: a state and operands that meet the hypotheses of each statement, a clause at a time where it has several -/

/-- A state whose next instruction is `CALL 0x1234` across the top of memory. -/
def callAtTop : State := put 0xFFFE [0xCD, 0x34, 0x12] State.reset

/-- A faulted state. -/
def faulted : State := { State.reset with fault := some ⟨.unimplementedOpcode, some 0xCB, 0, none, none⟩ }

theorem witness_DecodeInvertsEncode :
    (Instr.callA16 0xFFFF).wellFormed = true ∧ (Instr.unimplemented 0xCB).wellFormed = true := by decide

theorem witness_EncodeInvertsDecode : decode [0xC3, 0x34, 0x12, 0x99] = .ok (.jpA16 0x1234, [0x99]) := rfl

theorem witness_StepRunsDecodedInstruction_admitted :
    callAtTop.fault = none ∧
    decode [callAtTop.byteAt callAtTop.pc, callAtTop.byteAt (callAtTop.pc + 1), callAtTop.byteAt (callAtTop.pc + 2)] =
      .ok (.callA16 0x1234, []) ∧ ∀ op, Instr.callA16 0x1234 ≠ .unimplemented op :=
  ⟨by decide, rfl, nofun⟩

theorem witness_StepRunsDecodedInstruction_unimplemented :
    (put 0 [0xCB] State.reset).fault = none ∧
    decode [(put 0 [0xCB] State.reset).byteAt 0, (put 0 [0xCB] State.reset).byteAt 1, (put 0 [0xCB] State.reset).byteAt 2] =
      .ok (.unimplemented 0xCB, [0x00, 0x00]) := ⟨by decide, rfl⟩

theorem witness_FaultedStateTakesNoStep :
    faulted.fault = some ⟨.unimplementedOpcode, some 0xCB, 0, none, none⟩ := rfl

theorem witness_PlainOneByteStepAdvancesPcByOne :
    (put 0xFFFF [0x98] State.reset).fault = none ∧ (dispatchTable 0x98).any (fun e => e.form.oplen == 0) = true ∧
    (put 0xFFFF [0x98] State.reset).byteAt 0xFFFF = 0x98 ∧
    (0x98 : Byte) ∉ [0xC9, 0xC1, 0xD1, 0xE1, 0xC7, 0xCF, 0xD7, 0xDF, 0xE7, 0xEF, 0xF7, 0xFF] ∧
    answers (step (put 0xFFFF [0x98] State.reset)) = true := by decide

/-- A step that takes the base cost, one that takes the override, and one that faults. -/
theorem witness_CompletedStepAddsItsCost :
    ends (stepOn referenceCosts (put 0 [0x28, 1] State.reset)) (fun t => t.fault.isNone && t.ovr == 0) = true ∧
    ends (stepOn referenceCosts (put 0 [0x28, 1] { State.reset with f := 0x80 })) (fun t => t.fault.isNone && t.ovr == 12) =
      true ∧
    ends (stepOn referenceCosts (put 0 [0xCB] State.reset)) (fun t => t.fault.isSome) = true := by decide

theorem witness_ClockIsSumOfStepCosts :
    ends (runOn referenceCosts 2 (put 0 [0xAF] State.reset)) (fun t => t.fault.isNone) = true := by decide

theorem witness_CostsChangeOnlyTheClock :
    SameButCosts hardware referenceCosts ∧ SameButTiming State.reset { State.reset with clk := 1, ovr := 2 } :=
  ⟨⟨rfl, rfl, rfl⟩, rfl⟩

theorem witness_LaunchedStateHoldsResetValues :
    Memory.wf [(0xFFFF, 0x01)] = true ∧ ([] : List Byte).length ≤ 65536 ∧ (List.replicate 65536 (0x00 : Byte)).length ≤ 65536 :=
  ⟨by decide, by decide, by rw [List.length_replicate]⟩

theorem witness_OversizedImageIsRefused : (List.replicate 65537 (0x00 : Byte)).length > 65536 := by
  rw [List.length_replicate]
  decide

theorem witness_StepKeepsTheInvariant : State.reset.Inv ∧ answers (step State.reset) = true := by decide

theorem witness_UnusedFlagBitsStayZeroInEveryRun :
    ends (launch [] [0xBF]) (fun s => answers (runOn clearPolicy 1 s)) = true := by decide

theorem witness_StackPointerOnlyFallsByPushes :
    callAtTop.fault = none ∧ answers (step callAtTop) = true ∧ callAtTop.byteAt callAtTop.pc = 0xCD ∧
    answers (step State.reset) = true := by decide

theorem witness_UnimplementedOpcodeFaultsAtDecode :
    (put 0xFFFF [0xCB] State.reset).fault = none ∧ faultPolicy.memValid 0xFFFF = true ∧
    (put 0xFFFF [0xCB] State.reset).byteAt 0xFFFF ∉ admittedOpcodes := by decide

theorem witness_FetchOutOfBoundsFaults :
    (put 0x8000 [] State.reset).fault = none ∧ smallMemory.memValid (put 0x8000 [] State.reset).pc = false := by decide

theorem witness_OpcodeAtTopOverflowsUnderFault :
    (put 0xFFFF [0xC3] State.reset).fault = none ∧ faultPolicy.overflowPolicy = .fault ∧ faultPolicy.memValid 0xFFFF = true ∧
    (put 0xFFFF [0xC3] State.reset).pc = 0xFFFF ∧ (put 0xFFFF [0xC3] State.reset).byteAt 0xFFFF ∈ admittedOpcodes := by
  decide

/-- The operand above a small memory, and below a high one with the opcode at 0xFFFF under `Wrap`. -/
theorem witness_OperandOutOfBoundsFaults :
    ((put 0x7FFF [0xC3] State.reset).fault = none ∧ smallMemory.memValid 0x7FFF = true ∧
      seq16 smallMemory 0x7FFF 1 = some 0x8000 ∧ smallMemory.memValid 0x8000 = false ∧
      (put 0x7FFF [0xC3] State.reset).byteAt 0x7FFF ∈ [0x3E, 0xDE, 0xEE, 0xFE, 0x28, 0x38, 0xC3, 0xCD]) ∧
    ((put 0xFFFF [0x3E] State.reset).fault = none ∧ highMemory.memValid 0xFFFF = true ∧
      seq16 highMemory 0xFFFF 1 = some 0x0000 ∧ highMemory.memValid 0x0000 = false ∧
      (put 0xFFFF [0x3E] State.reset).byteAt 0xFFFF ∈ [0x3E, 0xDE, 0xEE, 0xFE, 0x28, 0x38, 0xC3, 0xCD]) := by decide

/-- F5: `L ++ H` is 0x8000. -/
theorem witness_MemoryOperandOutOfBoundsFaults :
    smallMemory.memValid
      (BitVec.ofNat 16
        ((State.l { State.reset with l := 0x80 }).toNat * 256 + (State.h { State.reset with l := 0x80 }).toNat)) = false ∧
    Instr.xorAtHL ∈ [Instr.sbcAAtHL, .xorAtHL, .cpAtHL] := by decide

theorem witness_PushUnderFaultWritesThenOverflows :
    faultPolicy.overflowPolicy = .fault ∧ (∀ x, faultPolicy.memValid x = true) ∧ State.reset.mem.wf = true ∧
    State.reset.sp.toNat < 2 ∧ (State.sp { State.reset with sp := 1 }).toNat < 2 ∧
    (Instr.pushHL, 0) ∈ storeForms State.reset 0 := ⟨rfl, fun _ => rfl, by decide, by decide, by decide, by decide⟩

theorem witness_PopUnderFaultOverflows :
    faultPolicy.overflowPolicy = .fault ∧ (∀ x, faultPolicy.memValid x = true) ∧
    (State.pc { State.reset with pc := 0xFFFE }).toNat ≥ 0xFFFE ∧ (State.pc { State.reset with pc := 0xFFFF }).toNat ≥ 0xFFFE ∧
    Instr.popHL ∈ [Instr.ret, .popBC, .popDE, .popHL] := ⟨rfl, fun _ => rfl, by decide, by decide, by decide⟩

theorem witness_TakenJumpPastTopOverflowsUnderFault :
    faultPolicy.overflowPolicy = .fault ∧ (0xFFFF : Word).toNat + (0x01 : Byte).toNat > 0xFFFF ∧
    (Instr.jrC 0x01, (0x10 : Byte)) ∈ [(Instr.jrZ 0x01, (0x80 : Byte)), (.jrC 0x01, 0x10)] ∧
    State.f { State.reset with pc := 0xFFFF, f := 0x10 } = 0x10 := by decide

theorem witness_HardwareRaisesOnlyUnimplementedOpcode :
    (put 0 [0xCB] State.reset).fault = none ∧ ends (step (put 0 [0xCB] State.reset)) (fun t => t.fault.isSome) = true := by
  decide

/-- Both ends of the range, and one step past each. -/
theorem witness_SequencerArithmetic :
    (0 ≤ ((0x0002 : Word).toNat : Int) + (-2) ∧ ((0x0002 : Word).toNat : Int) + (-2) ≤ 0xFFFF) ∧
    (0 ≤ ((0xFFFE : Word).toNat : Int) + 1 ∧ ((0xFFFE : Word).toNat : Int) + 1 ≤ 0xFFFF) ∧
    hardware.overflowPolicy = .wrap ∧ faultPolicy.overflowPolicy = .fault ∧
    ¬(0 ≤ ((0x0001 : Word).toNat : Int) + (-2) ∧ ((0x0001 : Word).toNat : Int) + (-2) ≤ 0xFFFF) ∧
    ¬(0 ≤ ((0xFFFF : Word).toNat : Int) + 1 ∧ ((0xFFFF : Word).toNat : Int) + 1 ≤ 0xFFFF) := by decide

theorem witness_ReadAfterWrite : State.reset.mem.wf = true ∧ hardware.memValid 0xFFFF = true := by decide

/-- The three clauses: a whole access across the top, the second address invalid, the second address an overflow. -/
theorem witness_WordAccessOrder :
    (hardware.memValid 0xFFFF = true ∧ seq16 hardware 0xFFFF 1 = some 0x0000 ∧ hardware.memValid 0x0000 = true) ∧
    (smallMemory.memValid 0x7FFF = true ∧ seq16 smallMemory 0x7FFF 1 = some 0x8000 ∧ smallMemory.memValid 0x8000 = false) ∧
    (faultPolicy.memValid 0xFFFF = true ∧ seq16 faultPolicy 0xFFFF 1 = none) := by decide

theorem witness_PairByteOrder :
    (Pair.hl, Reg.h, Reg.l) ∈ [(Pair.bc, Reg.b, Reg.c), (.de, .d, .e), (.hl, .h, .l)] ∧ Reg.a ≠ Reg.h ∧ Reg.a ≠ Reg.l := by
  decide

theorem witness_SetFlagWritesOneBit : 0 ≠ Flag.carry.pos := by decide

theorem witness_EveryInstructionCompletes :
    (Instr.unimplemented 0x76).wellFormed = true ∧ Instr.rst38.wellFormed = true ∧ ∀ op, Instr.rst38 ≠ .unimplemented op :=
  ⟨by decide, by decide, nofun⟩

theorem witness_BehaviourLeavesItsOverride :
    (∀ op, Instr.jrZ 1 ≠ .unimplemented op) ∧ answers (exec (.jrZ 1) { State.reset with f := 0x80 }) = true ∧
    branchTaken (.jrZ 1) { State.reset with f := 0x80 } = true ∧ branchTaken (.jrZ 1) State.reset = false :=
  ⟨nofun, by decide, by decide, by decide⟩

theorem witness_NopStepChangesOnlyPcAndClock : State.reset.fault = none ∧ State.reset.byteAt State.reset.pc = 0x00 := by decide

theorem witness_SixteenBitAddResult : (Instr.addHLSP, 2) ∈ addForms { State.reset with sp := 2 } := by decide

theorem witness_SubtractWithBorrowResult : (Instr.sbcAd8 0xFF, (0xFF : Byte)) ∈ sbcForms State.reset 0xFF := by decide

theorem witness_ExclusiveOrResult : (Instr.xorAtHL, (0x00 : Byte)) ∈ xorForms State.reset 0xFF := by decide

theorem witness_CompareResult : (Instr.cpA, (0x42 : Byte)) ∈ cpForms { State.reset with a := 0x42 } 0xFF := by decide

theorem witness_CompareUnderClearResult :
    clearPolicy.cpUnfired = .clear ∧ (∀ x, clearPolicy.memValid x = true) ∧
    (Instr.cpA, (0x42 : Byte)) ∈ cpForms { State.reset with a := 0x42 } 0xFF := ⟨rfl, fun _ => rfl, by decide⟩

theorem witness_NoRelativeJumpRightAfterCompare :
    (Instr.cpA, (0x00 : Byte)) ∈ cpForms State.reset 0xFF ∧ answers (exec .cpA State.reset) = true ∧
    Instr.jrC 0x00 ∈ [Instr.jrZ 0x00, .jrC 0x00] := by decide

theorem witness_RelativeJumpResult :
    (Instr.jrZ 0xFF, (0x80 : Byte)) ∈ [(Instr.jrZ 0xFF, (0x80 : Byte)), (.jrC 0xFF, 0x10)] ∧
    State.f { State.reset with f := 0x80 } = 0x80 ∧ State.reset.f ≠ 0x80 := by decide

theorem witness_CallAndRestartResult :
    State.reset.mem.wf = true ∧ (Instr.rst38, (0x0038 : Word)) ∈ (Instr.callA16 0xFFFF, (0xFFFF : Word)) :: rstForms := by
  decide

theorem witness_PushPairResult : State.reset.mem.wf = true ∧ (Instr.pushDE, Reg.d, Reg.e) ∈ pushForms := by decide

theorem witness_PopPairResult : (Instr.popDE, Reg.d, Reg.e) ∈ popForms := by decide

/-- The push lands on the instruction itself: SP is its address. -/
theorem witness_CallStepPushesFallThrough :
    (put 0 [0xCD, 0x34, 0x12] State.reset).fault = none ∧ (put 0 [0xCD, 0x34, 0x12] State.reset).mem.wf = true ∧
    (put 0 [0xCD, 0x34, 0x12] State.reset).byteAt 0 = 0xCD ∧ (put 0 [0xCD, 0x34, 0x12] State.reset).sp = 0 := by decide

theorem witness_NopAndLoadFrame :
    answers (exec .nop State.reset) = true ∧ answers (exec (.ldAd8 0xFF) State.reset) = true ∧ Reg.b ≠ Reg.a := by decide

theorem witness_SixteenBitAddFrame :
    [Instr.addHLBC, .addHLDE, .addHLHL, .addHLSP].all (fun i => answers (exec i State.reset)) = true ∧
    Reg.a ≠ Reg.h ∧ Reg.a ≠ Reg.l := by decide

theorem witness_SubtractAndCompareFrame :
    (sbcForms State.reset 0xFF ++ cpForms State.reset 0xFF).all (fun p => answers (exec p.1 State.reset)) = true := by decide

theorem witness_ExclusiveOrFrame :
    (xorForms State.reset 0xFF).all (fun p => answers (exec p.1 State.reset)) = true ∧ Reg.b ≠ Reg.a := by decide

theorem witness_JumpAndReturnFrame :
    [Instr.jrZ 0xFF, .jrC 0xFF, .jpA16 0xFFFF, .ret].all (fun i => answers (exec i State.reset)) = true := by decide

theorem witness_StackStoreFrame :
    (storeForms State.reset 0xFFFF).all (fun p => answers (exec p.1 State.reset)) = true ∧
    (0x0002 : Word) ≠ State.reset.sp ∧ (0x0002 : Word) ≠ State.reset.sp + 1 := by decide

theorem witness_PopPairFrame :
    popForms.all (fun p => answers (exec p.1 State.reset)) = true ∧ Reg.a ≠ Reg.b ∧ Reg.a ≠ Reg.c := by decide

/-- Each clause: the second address overflows, is invalid; the advance by 2 overflows; the advance by 1 overflows. -/
theorem witness_LaterOperandFaultsInOrder :
    ((put 0xFFFE [0xC3] State.reset).fault = none ∧ faultPolicy.memValid 0xFFFE = true ∧
      seq16 faultPolicy 0xFFFE 1 = some 0xFFFF ∧ faultPolicy.memValid 0xFFFF = true ∧
      (put 0xFFFE [0xC3] State.reset).byteAt 0xFFFE ∈ [0xC3, 0xCD] ∧ seq16 faultPolicy 0xFFFF 1 = none) ∧
    ((put 0x7FFE [0xCD] State.reset).fault = none ∧ smallMemory.memValid 0x7FFE = true ∧
      seq16 smallMemory 0x7FFE 1 = some 0x7FFF ∧ smallMemory.memValid 0x7FFF = true ∧
      (put 0x7FFE [0xCD] State.reset).byteAt 0x7FFE ∈ [0xC3, 0xCD] ∧ seq16 smallMemory 0x7FFF 1 = some 0x8000 ∧
      smallMemory.memValid 0x8000 = false) ∧
    ((put 0xFFFD [0xC3] State.reset).fault = none ∧ faultPolicy.memValid 0xFFFD = true ∧
      seq16 faultPolicy 0xFFFD 1 = some 0xFFFE ∧ faultPolicy.memValid 0xFFFE = true ∧
      (put 0xFFFD [0xC3] State.reset).byteAt 0xFFFD ∈ [0xC3, 0xCD] ∧ seq16 faultPolicy 0xFFFE 1 = some 0xFFFF ∧
      faultPolicy.memValid 0xFFFF = true ∧ seq16 faultPolicy 0xFFFE 2 = none) ∧
    ((put 0xFFFE [0x3E] State.reset).fault = none ∧
      (put 0xFFFE [0x3E] State.reset).byteAt 0xFFFE ∈ [0x3E, 0xDE, 0xEE, 0xFE, 0x28, 0x38]) := by decide

/-- Each clause, for SP and for PC alike: the first address invalid, the second an overflow, the second invalid. -/
theorem witness_StackAccessFaultsInOrder :
    State.reset.mem.wf = true ∧ (Instr.rst38, 0) ∈ storeForms State.reset 0 ∧
    Instr.popHL ∈ [Instr.ret, .popBC, .popDE, .popHL] ∧
    (highMemory.memValid State.reset.sp = false ∧ highMemory.memValid State.reset.pc = false) ∧
    (faultPolicy.memValid 0xFFFF = true ∧ seq16 faultPolicy 0xFFFF 1 = none) ∧
    (smallMemory.memValid 0x7FFF = true ∧ seq16 smallMemory 0x7FFF 1 = some 0x8000 ∧ smallMemory.memValid 0x8000 = false) := by
  decide

end Sys2Proof.Tests
end

section
/-! PROOF. The scope obligations (00_scope.md): the executor on this hardware's parameters (R7), the sequencer
arithmetic (R10). -/

namespace Sys2Proof.Machine

/-- The word that an integer wraps to (R10) holds the integer's value mod 2^16. -/
theorem toNat_ofInt_word (z : Int) : ((BitVec.ofInt 16 z).toNat : Int) = z % 65536 := by
  rw [BitVec.toNat_ofInt]
  exact Int.toNat_of_nonneg (Int.emod_nonneg z (by decide))

/-- Settles O30: where `seq16` has a value it is the sum wrapped to 16 bits, and a sum in range is its own residue. -/
theorem sequencerArithmetic : Obligations.SequencerArithmetic := by
  intro c x k
  refine ⟨fun within => ?inRange, fun wrap => ?wraps, fun fault outside => seq16_fault fault outside⟩
  case inRange =>
    have residue : ((x.toNat : Int) + k) % 65536 = x.toNat + k := Int.emod_eq_of_lt within.1 (by omega)
    exact ⟨_, seq16_of_range within, (toNat_ofInt_word _).trans residue⟩
  case wraps => exact ⟨_, seq16_wrap wrap x k, toNat_ofInt_word _⟩

/-- Settles O8: arm by arm, the dispatcher of this hardware runs the executor's arm at `hardware` (`exec_eq_execOn`). -/
theorem execIsExecOnHardware : Obligations.ExecIsExecOnHardware := exec_eq_execOn

end Sys2Proof.Machine
end

section
/-! SUPPORT. What one family of instructions does on this hardware, by the families of Sys2Proof/Safety.lean, so that a
frame is proved once for a family; then what the fetch and every admitted behaviour leave of SP and OVR, and an
invariant's way through a run. -/

namespace Sys2Proof.Machine

/-! ### Registers and pairs -/

/-- `setpair` writes the pair's two registers and no other (10_state.md R15). -/
@[simp] theorem State.reg_setPair (s : State) (p : Pair) (v : Word) (r : Reg) :
    (s.setPair p v).reg r =
      if r = p.second then highByte v else if r = p.first then lowByte v else s.reg r := by
  simp [State.setPair]

theorem Pair.first_ne_second (p : Pair) : p.first ≠ p.second := by cases p <;> decide

/-- The operand address `L ++ H` (42_alu_flags.md R81) is the pair HL. -/
theorem State.atHL_eq (s : State) : s.atHL = s.byteAt (s.pair .hl) := by
  have hl : BitVec.ofNat 16 (s.l.toNat * 256 + s.h.toNat) = s.pair .hl := by
    rw [show s.l.toNat * 256 + s.h.toNat = (s.pair .hl).toNat from (s.pair_toNat .hl).symm, BitVec.ofNat_toNat,
      BitVec.setWidth_eq]
  rw [State.atHL, hl]

/-- `setpair` splits a word into its low and high byte (R15). -/
theorem State.setPair_bytes (s : State) (p : Pair) (v : Word) :
    ((s.setPair p v).reg p.first).toNat = v.toNat % 256 ∧ ((s.setPair p v).reg p.second).toNat = v.toNat / 256 :=
  ⟨by simp [p.first_ne_second, lowByte_toNat], by simp [highByte_toNat]⟩

/-- `setpair` leaves every other register (R15). -/
theorem State.reg_setPair_other {s : State} {p : Pair} {v : Word} {r : Reg} (first : r ≠ p.first) (second : r ≠ p.second) :
    (s.setPair p v).reg r = s.reg r := by simp [first, second]

/-! ### One equation per family -/

/-- Two next states of one outcome are one state. -/
theorem next_unique {o : Host.Outcome State Fault Refusal} {t u : State} (run : o = .next t) (ran : o = .next u) :
    t = u := Host.Outcome.next.inj (run.symm.trans ran)

/-- The 16-bit adds (42_alu_flags.md R82, R83). -/
theorem exec_add16 (s : State) {i : Instr} (mem : i ∈ [Instr.addHLBC, .addHLDE, .addHLHL, .addHLSP]) :
    ∃ x : Addend, exec i s =
      .next (((s.withF (add16Flags (s.pair .hl) (s.addend x) s.f)).setPair .hl
        (add16Result (s.pair .hl) (s.addend x))).withOvr (overrideAfter hardware i.opcode false s.ovr)) := by
  revert i
  simp only [List.forall_mem_cons]
  exact ⟨⟨.pair .bc, exec_addHLBC s⟩, ⟨.pair .de, exec_addHLDE s⟩, ⟨.pair .hl, exec_addHLHL s⟩, ⟨.sp, exec_addHLSP s⟩,
    nofun⟩

/-- Subtract-with-borrow (R84 to R87). -/
theorem exec_sbcForms (s : State) (d8 : Byte) : ∀ p ∈ sbcForms s d8,
    exec p.1 s =
      .next ((s.withF (sbcFlags s.a p.2 s.f)).withOvr (overrideAfter hardware p.1.opcode false s.ovr)) := by
  simp only [sbcForms, State.atHL_eq, List.forall_mem_cons]
  exact ⟨exec_sbcAB s, exec_sbcAC s, exec_sbcAD s, exec_sbcAE s, exec_sbcAH s, exec_sbcAL s, exec_sbcAAtHL s,
    exec_sbcAA s, exec_sbcAd8 d8 s, nofun⟩

/-- Exclusive-or (R88 to R91). -/
theorem exec_xorForms (s : State) (d8 : Byte) : ∀ p ∈ xorForms s d8,
    exec p.1 s =
      .next (((s.withA (s.a ^^^ p.2)).withF (xorFlags (s.a ^^^ p.2))).withOvr
        (overrideAfter hardware p.1.opcode false s.ovr)) := by
  simp only [xorForms, State.atHL_eq, List.forall_mem_cons]
  exact ⟨exec_xorB s, exec_xorC s, exec_xorD s, exec_xorE s, exec_xorH s, exec_xorL s, exec_xorAtHL s, exec_xorA s,
    exec_xord8 d8 s, nofun⟩

/-- Compare (R92 to R95). -/
theorem exec_cpForms (s : State) (d8 : Byte) : ∀ p ∈ cpForms s d8,
    exec p.1 s =
      .next ((s.withF (cpFlags .preserve s.a p.2 s.f)).withOvr (overrideAfter hardware p.1.opcode false s.ovr)) := by
  simp only [cpForms, State.atHL_eq, List.forall_mem_cons]
  exact ⟨exec_cpB s, exec_cpC s, exec_cpD s, exec_cpE s, exec_cpH s, exec_cpL s, exec_cpAtHL s, exec_cpA s,
    exec_cpd8 d8 s, nofun⟩

/-- `JR Z` takes its branch exactly where the whole flag byte is ZERO alone (43_control_stack.md R102, R103). -/
theorem branchTaken_jrZ (e8 : Byte) (s : State) : branchTaken (.jrZ e8) s = decide (s.f = 0x80) := Bool.or_false _

/-- `JR C` takes its branch exactly where the whole flag byte is CARRY alone (R104). -/
theorem branchTaken_jrC (e8 : Byte) (s : State) : branchTaken (.jrC e8) s = decide (s.f = 0x10) := rfl

/-- The jumps and RET write PC alone (R100 to R107); a relative jump not taken writes back what PC held. -/
theorem exec_jumps (s : State) (e8 : Byte) (a16 : Word) : ∀ i ∈ [Instr.jrZ e8, .jrC e8, .jpA16 a16, .ret],
    ∃ target, exec i s =
      .next ((s.withPc target).withOvr (overrideAfter hardware i.opcode (branchTaken i s) s.ovr)) := by
  simp only [List.forall_mem_cons]
  refine ⟨?jrZ, ?jrC, ⟨a16, exec_jpA16 a16 s⟩, ⟨_, exec_ret s⟩, nofun⟩
  case jrZ =>
    rw [exec_jrZ, branchTaken_jrZ]
    by_cases taken : s.f = 0x80
    · exact ⟨s.pc + BitVec.ofNat 16 e8.toNat, by rw [if_pos taken, decide_eq_true taken]; rfl⟩
    · exact ⟨s.pc, by rw [if_neg taken, decide_eq_false taken]; rfl⟩
  case jrC =>
    rw [exec_jrC, branchTaken_jrC]
    by_cases taken : s.f = 0x10
    · exact ⟨s.pc + BitVec.ofNat 16 e8.toNat, by rw [if_pos taken, decide_eq_true taken]; rfl⟩
    · exact ⟨s.pc, by rw [if_neg taken, decide_eq_false taken]; rfl⟩

/-- `s` with the word `w` pushed and PC at `target` (R97, R100). -/
def State.pushed (s : State) (w target : Word) : State :=
  (((s.withByte s.sp (lowByte w)).withByte (s.sp + 1) (highByte w)).withSp (s.sp - 2)).withPc target

/-- CALL, RST and PUSH store a word and set PC, a PUSH to what it held (R106, R108, R109). -/
theorem exec_storeForms (s : State) (a16 : Word) : ∀ p ∈ storeForms s a16,
    ∃ w target, exec p.1 s = .next ((s.pushed w target).withOvr (overrideAfter hardware p.1.opcode false s.ovr)) := by
  simp only [storeForms, rstForms, pushForms, List.map_cons, List.map_nil, List.cons_append, List.nil_append,
    List.forall_mem_cons]
  exact ⟨⟨s.pc, a16, exec_callA16 a16 s⟩, ⟨s.pc, 0x0000, exec_rst00 s⟩, ⟨s.pc, 0x0008, exec_rst08 s⟩,
    ⟨s.pc, 0x0010, exec_rst10 s⟩, ⟨s.pc, 0x0018, exec_rst18 s⟩, ⟨s.pc, 0x0020, exec_rst20 s⟩,
    ⟨s.pc, 0x0028, exec_rst28 s⟩, ⟨s.pc, 0x0030, exec_rst30 s⟩, ⟨s.pc, 0x0038, exec_rst38 s⟩,
    ⟨s.pair .bc, s.pc, exec_pushBC s⟩, ⟨s.pair .de, s.pc, exec_pushDE s⟩, ⟨s.pair .hl, s.pc, exec_pushHL s⟩, nofun⟩

/-- POP writes the pair of its two registers and PC (R98, R110). -/
theorem exec_popForms (s : State) : ∀ p ∈ popForms,
    ∃ q : Pair, q.first = p.2.1 ∧ q.second = p.2.2 ∧ exec p.1 s =
      .next (((s.withPc (s.pc + 2)).setPair q (word (s.byteAt (s.pc + 1)) (s.byteAt s.pc))).withOvr
        (overrideAfter hardware p.1.opcode false s.ovr)) := by
  simp only [popForms, List.forall_mem_cons]
  exact ⟨⟨.bc, rfl, rfl, exec_popBC s⟩, ⟨.de, rfl, rfl, exec_popDE s⟩, ⟨.hl, rfl, rfl, exec_popHL s⟩, nofun⟩

/-! ### SP, OVR and runs -/

/-- The opcodes that push two bytes: CALL, RST, PUSH (43_control_stack.md R97, R106, R108, R109). -/
def storeOpcodes : List Byte := [0xCD, 0xC7, 0xCF, 0xD7, 0xDF, 0xE7, 0xEF, 0xF7, 0xFF, 0xC5, 0xD5, 0xE5]

theorem storeOpcodes_subset_admittedOpcodes : ∀ op ∈ storeOpcodes, op ∈ admittedOpcodes := by decide

/-- What every admitted instruction does to OVR (40_execute_loop.md R70) and SP (10_state.md R17). -/
theorem exec_admitted (s : State) {i : Instr} (admitted : ∀ op, i ≠ .unimplemented op) :
    ∃ t : State, exec i s = .next (t.withOvr (overrideAfter hardware i.opcode (branchTaken i s) s.ovr)) ∧
      t.sp = if i.opcode ∈ storeOpcodes then s.sp - 2 else s.sp := by
  cases i with
  | unimplemented op => exact absurd rfl (admitted op)
  | jrZ e8 =>
    obtain ⟨target, run⟩ := exec_jumps s e8 0 (.jrZ e8) (by simp)
    exact ⟨_, run, rfl⟩
  | jrC e8 =>
    obtain ⟨target, run⟩ := exec_jumps s e8 0 (.jrC e8) (by simp)
    exact ⟨_, run, rfl⟩
  | ret => exact ⟨_, exec_ret s, rfl⟩
  | popBC => exact ⟨_, exec_popBC s, rfl⟩
  | popDE => exact ⟨_, exec_popDE s, rfl⟩
  | popHL => exact ⟨_, exec_popHL s, rfl⟩
  | callA16 a16 => exact ⟨_, exec_callA16 a16 s, rfl⟩
  | rst00 => exact ⟨_, exec_rst00 s, rfl⟩
  | rst08 => exact ⟨_, exec_rst08 s, rfl⟩
  | rst10 => exact ⟨_, exec_rst10 s, rfl⟩
  | rst18 => exact ⟨_, exec_rst18 s, rfl⟩
  | rst20 => exact ⟨_, exec_rst20 s, rfl⟩
  | rst28 => exact ⟨_, exec_rst28 s, rfl⟩
  | rst30 => exact ⟨_, exec_rst30 s, rfl⟩
  | rst38 => exact ⟨_, exec_rst38 s, rfl⟩
  | pushBC => exact ⟨_, exec_pushBC s, rfl⟩
  | pushDE => exact ⟨_, exec_pushDE s, rfl⟩
  | pushHL => exact ⟨_, exec_pushHL s, rfl⟩
  | _ => exact ⟨_, rfl, rfl⟩

/-- Every instruction of the decoder answers a next state, SP moved down by 2 by the pushes alone (10_state.md R17). -/
theorem exec_sp (s : State) {i : Instr} (wf : i.wellFormed = true) :
    ∃ t, exec i s = .next t ∧ t.sp = if i.opcode ∈ storeOpcodes then s.sp - 2 else s.sp := by
  by_cases admitted : ∀ op, i ≠ .unimplemented op
  · obtain ⟨t, run, sp⟩ := exec_admitted s admitted
    exact ⟨_, run, sp⟩
  · obtain ⟨op, rfl⟩ : ∃ op, i = .unimplemented op := by simpa using admitted
    have outside : op ∉ admittedOpcodes := by simpa [Instr.wellFormed] using wf
    have other : op ∉ storeOpcodes := fun mem => outside (storeOpcodes_subset_admittedOpcodes op mem)
    exact ⟨_, exec_unimplemented op s, (if_neg other).symm⟩

/-- Steps 1 to 6 on this hardware give the instruction of the byte at PC and leave SP (40_execute_loop.md R64 to R69). -/
theorem fetchDecode_hardware_sp (s : State) :
    ∃ i s', fetchDecode hardware s = .ok i s' ∧ i.opcode = s.byteAt s.pc ∧ i.wellFormed = true ∧ s'.sp = s.sp := by
  have meets := (closed_clk s.clk).fetchDecode (c := hardware) (s := s) rfl
  rw [fetchDecode_hardware] at meets ⊢
  revert meets
  rcases dispatchTable (s.byteAt s.pc) with _ | ⟨name, i | mk | mk⟩ <;> intro meets <;>
  · obtain ⟨opcode, wf, -⟩ := Res.meets_ok.1 meets
    exact ⟨_, _, rfl, opcode, wf, rfl⟩

/-- Step 8 leaves SP (40_execute_loop.md R71). -/
@[simp] theorem accountUnlessFaulted_sp (c : Config) (op : Byte) (t : State) :
    (accountUnlessFaulted c op t).sp = t.sp := by
  unfold accountUnlessFaulted
  split <;> rfl

/-- What every step keeps, a run of any length keeps. -/
theorem runOn_keeps {c : Config} {P : State → Prop} (step_keeps : ∀ s t, P s → stepOn c s = .next t → P t) {n : Nat} :
    ∀ {s t : State}, P s → runOn c n s = .next t → P t := by
  induction n with
  | zero =>
    intro s t holds run
    cases run
    exact holds
  | succ n ih =>
    intro s t holds run
    rw [runOn_succ] at run
    cases stepped : stepOn c s with
    | next u =>
      rw [stepped] at run
      exact ih (step_keeps s u holds stepped) run
    | fault r => rw [stepped] at run; cases run
    | refused r => rw [stepped] at run; cases run

/-! ### Reset and launch -/

/-- Every register is zero after reset, whatever memory holds (10_state.md R29). -/
theorem reg_reset (m : Memory) (r : Reg) : State.reg { State.reset with mem := m } r = 0 := by cases r <;> rfl

/-- An image that fits is loaded over `INIT_MEM` (20_memory.md R46). -/
theorem launch_fits (initMem : Memory) {image : List Byte} (fits : image.length ≤ addressSpace) :
    launch initMem image = .next { State.reset with mem := writeCells initMem 0 image } := if_pos fits

/-- A launch that is not refused starts with no flag set (10_state.md R29). -/
theorem f_of_launch {initMem : Memory} {image : List Byte} {s : State} (start : launch initMem image = .next s) :
    s.f = 0 := by
  unfold launch at start
  split at start <;> cases start
  rfl

end Sys2Proof.Machine
end

section
/-! PROOF. The state obligations (10_state.md): reset and launch, what every run and step keeps, the register pairs, the
override, and the frame of each family. -/

namespace Sys2Proof.Machine

/-! ### Reset, launch and runs -/

/-- Settles O15: each field of reset is zero. -/
theorem resetStateIsAllZero : Obligations.ResetStateIsAllZero := ⟨reg_reset [], rfl, rfl, rfl, rfl, rfl, rfl, rfl⟩

/-- Settles O16: reset lists no memory, has no flag set and no fault. -/
theorem resetMeetsTheInvariant : Obligations.ResetMeetsTheInvariant := ⟨rfl, rfl, rfl⟩

/-- Settles O13: the launch is reset but for memory, and memory reads as the loader's writes leave it. -/
theorem launchedStateHoldsResetValues : Obligations.LaunchedStateHoldsResetValues := by
  intro initMem image wf fits
  have bound : 0 + image.length ≤ addressSpace := by simpa [addressSpace] using fits
  refine ⟨_, launch_fits initMem fits, reg_reset _, rfl, rfl, rfl, rfl, rfl, rfl, wf_writeCells image wf bound, ?_⟩
  intro a
  simpa [State.byteAt] using readCell_writeCells image 0 a.toNat wf bound

/-- Settles O18: the launch clears `F`, and every step keeps its unused bits zero (`closed_unused`). -/
theorem unusedFlagBitsStayZeroInEveryRun : Obligations.UnusedFlagBitsStayZeroInEveryRun := by
  intro c initMem image s t n start run
  have unused : s.f &&& 0x0F = 0 := by simp [f_of_launch start]
  exact runOn_keeps (fun u v => stepOn_keeps closed_unused (fun _ _ holds => holds) fun _ _ holds => holds) unused run

/-- Settles O7: the step asks for `FAULT` before it does anything. -/
theorem faultedStateTakesNoStep : Obligations.FaultedStateTakesNoStep :=
  fun _ _ _ faulted => ⟨stepWith_of_fault faulted, stepWith_of_fault faulted⟩

/-- Settles O19: the fetch and the accounting leave SP, and step 7 moves it by `exec_sp`. -/
theorem stackPointerOnlyFallsByPushes : Obligations.StackPointerOnlyFallsByPushes := by
  intro s t ok run
  obtain ⟨i, s', fetched, opcode, wf, sp⟩ := fetchDecode_hardware_sp s
  obtain ⟨u, ran, moved⟩ := exec_sp s' wf
  have stepped : step s = .next (accountUnlessFaulted hardware i.opcode u) := stepWith_of_next ok fetched ran
  obtain rfl := next_unique run stepped
  rw [accountUnlessFaulted_sp, moved, opcode, sp]
  rfl

/-! ### Pairs and the override -/

/-- Settles O33: a pair reads as second-named times 256 plus first-named, and `setpair` writes those two. -/
theorem pairByteOrder : Obligations.PairByteOrder := by
  intro s v
  refine ⟨s.pair_toNat .bc, s.pair_toNat .de, s.pair_toNat .hl, fun p mem => ?_⟩
  have named : ∀ p ∈ [(Pair.bc, Reg.b, Reg.c), (.de, .d, .e), (.hl, .h, .l)],
      p.2.1 = p.1.first ∧ p.2.2 = p.1.second := by decide
  obtain ⟨first, second⟩ := named p mem
  obtain ⟨low, high⟩ := s.setPair_bytes p.1 v
  rw [first, second]
  exact ⟨low, high, fun r notFirst notSecond => State.reg_setPair_other notFirst notSecond, s.setPair_f p.1 v⟩

/-- Settles O36: OVR is the last thing a behaviour writes (`exec_admitted`). -/
theorem behaviourLeavesItsOverride : Obligations.BehaviourLeavesItsOverride := by
  intro i s t admitted run
  obtain ⟨u, ran, -⟩ := exec_admitted s admitted
  obtain rfl := next_unique run ran
  rfl

/-! ### Frames -/

/-- Settles O52: `exec_nop` writes nothing but OVR, `exec_ldAd8` nothing but A and OVR. -/
theorem nopAndLoadFrame : Obligations.NopAndLoadFrame := by
  intro s t d8 i mem run
  simp only [List.mem_cons, List.not_mem_nil, or_false] at mem
  obtain rfl | rfl := mem
  case inl =>
    obtain rfl := next_unique run (exec_nop s)
    exact ⟨fun r _ => State.reg_withOvr _ _ r, rfl, rfl, rfl, rfl, fun _ => rfl⟩
  case inr =>
    obtain rfl := next_unique run (exec_ldAd8 d8 s)
    refine ⟨fun r other => ?_, rfl, rfl, rfl, rfl, fun _ => rfl⟩
    have notA : r ≠ .a := other.resolve_left nofun
    simp [notA]

/-- Settles O53: the add writes F and HL, and of F neither ZERO nor the unused bits. -/
theorem sixteenBitAddFrame : Obligations.SixteenBitAddFrame := by
  intro s t i mem run
  obtain ⟨x, ran⟩ := exec_add16 s mem
  obtain rfl := next_unique run ran
  have zero : getFlag .zero (add16Flags (s.pair .hl) (s.addend x) s.f) = getFlag .zero s.f := by simp [add16Flags]
  exact ⟨fun r notH notL => State.reg_setPair_other notH notL, by simpa using zero,
    fun k low => getLsbD_of_unused_eq (by simp) low, by simp, by simp, by simp, by simp, by simp⟩

/-- A write of `F` and OVR that leaves the unused flag bits leaves all the rest. -/
theorem withF_frame {s : State} {f : Byte} (ovr : Word) (unused : f &&& 15#8 = s.f &&& 15#8) :
    KeepsAllButFlagsAndPc s ((s.withF f).withOvr ovr) ∧ ((s.withF f).withOvr ovr).pc = s.pc ∧
      ∀ k, k < 4 → ((s.withF f).withOvr ovr).f.getLsbD k = s.f.getLsbD k :=
  ⟨by simp [KeepsAllButFlagsAndPc], rfl, fun _ low => getLsbD_of_unused_eq unused low⟩

/-- Settles O54: both families write flags and OVR alone. -/
theorem subtractAndCompareFrame : Obligations.SubtractAndCompareFrame := by
  intro s t d8 p mem run
  obtain mem | mem := List.mem_append.1 mem
  case inl =>
    obtain rfl := next_unique run (exec_sbcForms s d8 p mem)
    exact withF_frame _ (sbcFlags_unused _ _ _)
  case inr =>
    obtain rfl := next_unique run (exec_cpForms s d8 p mem)
    exact withF_frame _ (cpFlags_unused _ _ _ _)

/-- Settles O55: exclusive-or writes A, F and OVR alone. -/
theorem exclusiveOrFrame : Obligations.ExclusiveOrFrame := by
  intro s t d8 p mem run
  obtain rfl := next_unique run (exec_xorForms s d8 p mem)
  exact ⟨fun r notA => by simp [notA], rfl, rfl, rfl, rfl, fun _ => rfl⟩

/-- Settles O56: each of the four writes PC and OVR alone. -/
theorem jumpAndReturnFrame : Obligations.JumpAndReturnFrame := by
  intro s t e8 a16 i mem run
  obtain ⟨target, ran⟩ := exec_jumps s e8 a16 i mem
  obtain rfl := next_unique run ran
  simp [KeepsAllButFlagsAndPc]

/-- Settles O57: a push writes SP, PC, OVR and the bytes at SP and SP + 1. -/
theorem stackStoreFrame : Obligations.StackStoreFrame := by
  intro s t a16 p mem run
  obtain ⟨w, target, ran⟩ := exec_storeForms s a16 p mem
  obtain rfl := next_unique run ran
  refine ⟨by simp [State.pushed], rfl, rfl, rfl, ?memory⟩
  case memory =>
    rintro _ rfl x notLow notHigh
    exact (State.byteAt_withByte_other notHigh).trans (State.byteAt_withByte_other notLow)

/-- Settles O58: a pop writes its pair, PC and OVR. -/
theorem popPairFrame : Obligations.PopPairFrame := by
  intro s t p mem run
  obtain ⟨q, first, second, ran⟩ := exec_popForms s p mem
  obtain rfl := next_unique run ran
  rw [← first, ← second]
  exact ⟨fun r notFirst notSecond => by simp [notFirst, notSecond], by simp, by simp, by simp, by simp, by simp⟩

end Sys2Proof.Machine
end

section
/-! SUPPORT. A two-byte access on any parameters: what it does where both addresses are valid, and where it raises. Then how
a fault in it ends a push, a pop, the behaviours built on them, and the operand read of a step. -/

namespace Sys2Proof.Machine

/-! ### Words as numbers -/

/-- `hi ++ lo` (00_scope.md R8) as the word of a number. -/
theorem word_eq_ofNat (hi lo : Byte) : word hi lo = BitVec.ofNat 16 (hi.toNat * 256 + lo.toNat) := by
  rw [← word_toNat, BitVec.ofNat_toNat, BitVec.setWidth_eq]

theorem lowByte_eq_ofNat (v : Word) : lowByte v = BitVec.ofNat 8 v.toNat := by
  rw [BitVec.ofNat_toNat, lowByte]

theorem highByte_eq_ofNat (v : Word) : highByte v = BitVec.ofNat 8 (v.toNat / 256) := by
  rw [← highByte_toNat, BitVec.ofNat_toNat, BitVec.setWidth_eq]

/-! ### Two-byte accesses -/

/-- How the second access of a two-byte access at `a` raises (20_memory.md R34): its address overflows, or is invalid. The
index is the record that `FAULT` then holds. -/
inductive SecondRaises (c : Config) (site : Site) (a : Word) : FaultRecord → Prop where
  | overflow (overflows : seq16 c a 1 = none) : SecondRaises c site a (site.overflow a 1)
  | invalid {b : Word} (next : seq16 c a 1 = some b) (bad : c.memValid b = false) :
      SecondRaises c site a (site.outOfBounds b)

section
variable {c : Config} {site : Site} {a b : Word} {r : FaultRecord}

theorem readBytes_two_valid (s : State) (first : c.memValid a = true) (next : seq16 c a 1 = some b)
    (second : c.memValid b = true) : readBytes c site a 2 s = .ok [s.byteAt a, s.byteAt b] s := by
  simp only [readBytes_two, readByte_valid _ _ first, seqStep_some _ next, readByte_valid _ _ second, Res.bind_ok]

theorem writeBytes_two_valid (v w : Byte) (s : State) (first : c.memValid a = true) (next : seq16 c a 1 = some b)
    (second : c.memValid b = true) : writeBytes c site a [v, w] s = .ok () ((s.withByte a v).withByte b w) := by
  simp only [writeBytes_two, writeByte_valid _ _ _ first, seqStep_some _ next, writeByte_valid _ _ _ second, Res.bind_ok]

theorem readBytes_two_first_invalid (s : State) (bad : c.memValid a = false) :
    readBytes c site a 2 s = .raised (s.raise (site.outOfBounds a)) := by
  rw [readBytes_two, readByte_invalid site s bad, Res.bind_raised]

theorem writeBytes_two_first_invalid (v w : Byte) (s : State) (bad : c.memValid a = false) :
    writeBytes c site a [v, w] s = .raised (s.raise (site.outOfBounds a)) := by
  rw [writeBytes_two, writeByte_invalid site v s bad, Res.bind_raised]

/-- A read whose second access raises leaves nothing behind but the record. -/
theorem SecondRaises.readBytes (raises : SecondRaises c site a r) (s : State) (first : c.memValid a = true) :
    readBytes c site a 2 s = .raised (s.raise r) := by
  rw [readBytes_two, readByte_valid site s first, Res.bind_ok]
  cases raises with
  | overflow overflows => rw [seqStep_none s overflows, Res.bind_raised]
  | invalid next bad => rw [seqStep_some s next, Res.bind_ok, readByte_invalid site s bad, Res.bind_raised]

/-- A write whose second access raises has written its first byte (R34). -/
theorem SecondRaises.writeBytes (raises : SecondRaises c site a r) (v w : Byte) (s : State) (first : c.memValid a = true) :
    writeBytes c site a [v, w] s = .raised ((s.withByte a v).raise r) := by
  rw [writeBytes_two, writeByte_valid site v s first, Res.bind_ok]
  cases raises with
  | overflow overflows => rw [seqStep_none _ overflows, Res.bind_raised]
  | invalid next bad => rw [seqStep_some _ next, Res.bind_ok, writeByte_invalid site w _ bad]

theorem readWord_valid (s : State) (first : c.memValid a = true) (next : seq16 c a 1 = some b)
    (second : c.memValid b = true) : readWord c site a s = .ok (word (s.byteAt b) (s.byteAt a)) s := by
  rw [readWord, readBytes_two_valid s first next second]
  rfl

theorem SecondRaises.readWord (raises : SecondRaises c site a r) (s : State) (first : c.memValid a = true) :
    readWord c site a s = .raised (s.raise r) := by
  rw [Machine.readWord, raises.readBytes s first, Res.bind_raised]

end

/-! ### A fault in a push or a pop -/

section
variable {c : Config} {site : Site} {s t : State}

theorem push_of_raised {vs : List Byte} (raised : writeBytes c site s.sp vs s = .raised t) :
    push c site vs s = .raised t := by
  rw [push, raised, Res.bind_raised]

theorem pop_of_raised {n : Nat} (raised : readBytes c site s.pc n s = .raised t) : pop c site n s = .raised t := by
  rw [pop, raised, Res.bind_raised]

theorem call_of_raised {a16 : Word} (raised : push c site (leBytes s.pc) s = .raised t) :
    call c a16 site s = .raised t := by
  rw [call, pushProgramCounter, raised, Res.bind_raised, plain_raised]

/-- A restart, run as the behaviour of `i`, ends where its push raises (43_control_stack.md R101, R108). -/
theorem behave_restart_of_raised {i : Instr} {vector : Word}
    (raised : push c ⟨some i.opcode, s.pc - BitVec.ofNat 16 i.length⟩ (leBytes s.pc) s = .raised t) :
    behave c i (fun site s => plain (restart c site vector s)) s = .next t :=
  behave_of_raised (by rw [restart, pushProgramCounter, raised, Res.bind_raised, plain_raised])

theorem pushPair_of_raised {p : Pair} (raised : push c site (leBytes (s.pair p)) s = .raised t) :
    pushPair c p site s = .raised t := by
  rw [pushPair, raised, plain_raised]

theorem ret_of_raised (raised : pop c site 2 s = .raised t) : ret c site s = .raised t := by
  rw [ret, raised, Res.bind_raised, plain_raised]

theorem popPair_of_raised {p : Pair} (raised : pop c site 2 s = .raised t) : popPair c p site s = .raised t := by
  rw [popPair, raised, Res.bind_raised]

end

/-- CALL, RST and PUSH end where their push of the form's word raises (43_control_stack.md R106, R108, R109). -/
theorem execOn_storeForms_of_raised (c : Config) (s : State) (a16 : Word) : ∀ p ∈ storeForms s a16,
    ∃ w : Word, w.toNat = p.2 ∧
      ∀ t, push c ⟨some p.1.opcode, s.pc - BitVec.ofNat 16 p.1.length⟩ (leBytes w) s = .raised t →
        execOn c p.1 s = .next t := by
  simp only [storeForms, rstForms, pushForms, List.map_cons, List.map_nil, List.cons_append, List.nil_append,
    List.forall_mem_cons]
  exact ⟨⟨s.pc, rfl, fun _ raised => behave_of_raised (call_of_raised raised)⟩,
    ⟨s.pc, rfl, fun _ raised => behave_restart_of_raised raised⟩,
    ⟨s.pc, rfl, fun _ raised => behave_restart_of_raised raised⟩,
    ⟨s.pc, rfl, fun _ raised => behave_restart_of_raised raised⟩,
    ⟨s.pc, rfl, fun _ raised => behave_restart_of_raised raised⟩,
    ⟨s.pc, rfl, fun _ raised => behave_restart_of_raised raised⟩,
    ⟨s.pc, rfl, fun _ raised => behave_restart_of_raised raised⟩,
    ⟨s.pc, rfl, fun _ raised => behave_restart_of_raised raised⟩,
    ⟨s.pc, rfl, fun _ raised => behave_restart_of_raised raised⟩,
    ⟨s.pair .bc, s.pair_toNat .bc, fun _ raised => behave_of_raised (pushPair_of_raised raised)⟩,
    ⟨s.pair .de, s.pair_toNat .de, fun _ raised => behave_of_raised (pushPair_of_raised raised)⟩,
    ⟨s.pair .hl, s.pair_toNat .hl, fun _ raised => behave_of_raised (pushPair_of_raised raised)⟩, nofun⟩

/-- RET and POP end where the read of their two bytes at PC raises (R98, R107, R110). -/
theorem execOn_pops_of_raised (c : Config) (s : State) : ∀ i ∈ [Instr.ret, .popBC, .popDE, .popHL],
    ∀ t, readBytes c ⟨some i.opcode, s.pc - 1⟩ s.pc 2 s = .raised t → execOn c i s = .next t := by
  simp only [List.forall_mem_cons]
  exact ⟨fun _ raised => behave_of_raised (ret_of_raised (pop_of_raised raised)),
    fun _ raised => behave_of_raised (popPair_of_raised (pop_of_raised raised)),
    fun _ raised => behave_of_raised (popPair_of_raised (pop_of_raised raised)),
    fun _ raised => behave_of_raised (popPair_of_raised (pop_of_raised raised)), nofun⟩

/-! ### A fault after the opcode of a step -/

/-- The opcodes of the two-byte operands (30_encoding.md R48, R56). -/
theorem dispatchTable_two_byte_operand :
    ∀ op ∈ ([0xC3, 0xCD] : List Byte), ∃ name mk, dispatchTable op = some ⟨name, .f2 mk⟩ := by
  simp only [List.forall_mem_cons]
  exact ⟨⟨_, _, rfl⟩, ⟨_, _, rfl⟩, nofun⟩

/-- The opcodes of the one-byte operands (R48, R56). -/
theorem dispatchTable_one_byte_operand :
    ∀ op ∈ ([0x3E, 0xDE, 0xEE, 0xFE, 0x28, 0x38] : List Byte), ∃ name mk, dispatchTable op = some ⟨name, .f1 mk⟩ := by
  simp only [List.forall_mem_cons]
  exact ⟨⟨_, _, rfl⟩, ⟨_, _, rfl⟩, ⟨_, _, rfl⟩, ⟨_, _, rfl⟩, ⟨_, _, rfl⟩, ⟨_, _, rfl⟩, nofun⟩

section
variable {c : Config} {site : Site} {s : State}

theorem readOperand_one_byte_valid (mk : Byte → Instr) (first : c.memValid s.pc = true) :
    readOperand c site (.f1 mk) s = .ok (mk (s.byteAt s.pc)) s := by
  rw [readOperand, readByte_valid site s first, Res.bind_ok]

theorem readOperand_two_byte_valid (mk : Word → Instr) {b : Word} (first : c.memValid s.pc = true)
    (next : seq16 c s.pc 1 = some b) (second : c.memValid b = true) :
    readOperand c site (.f2 mk) s = .ok (mk (word (s.byteAt b) (s.byteAt s.pc))) s := by
  rw [readOperand, readWord_valid s first next second, Res.bind_ok]

theorem SecondRaises.readOperand {r : FaultRecord} (raises : SecondRaises c site s.pc r) (mk : Word → Instr)
    (first : c.memValid s.pc = true) : readOperand c site (.f2 mk) s = .raised (s.raise r) := by
  rw [Machine.readOperand, raises.readWord s first, Res.bind_raised]

end

/-- `PC <- seq16(PC, k)` where that has a value. -/
theorem advancePc_some {c : Config} {site : Site} {k : Int} {s : State} {y : Word} (next : seq16 c s.pc k = some y) :
    advancePc c site k s = .ok () (s.withPc y) := by
  rw [advancePc, seqStep_some s next, Res.bind_ok]

/-- `PC <- seq16(PC, k)` where that overflows: PC stays. -/
theorem advancePc_none {c : Config} {site : Site} {k : Int} {s : State} (overflows : seq16 c s.pc k = none) :
    advancePc c site k s = .raised (s.raise (site.overflow s.pc k)) := by
  rw [advancePc, seqStep_none s overflows, Res.bind_raised]

section
variable {c : Config} {s : State} {a : Word} {e : Entry} (valid : c.memValid s.pc = true)
  (entry : dispatchTable (s.byteAt s.pc) = some e) (next : seq16 c s.pc 1 = some a)
include valid entry next

/-- Steps 1 to 6 of an opcode with a behaviour, from the operand read on (40_execute_loop.md R66 to R69). -/
theorem fetchDecode_of_entry :
    fetchDecode c s =
      (readOperand c ⟨some (s.byteAt s.pc), s.pc⟩ e.form (s.withPc a)).bind fun i s' =>
        (advancePc c ⟨some (s.byteAt s.pc), s.pc⟩ e.form.oplen s').bind fun _ s' => .ok i (s'.withOvr 0) := by
  simp only [fetchDecode, readByte_valid _ s valid, entry, prepare, advancePc_some next, Res.bind_ok]

/-- A step ends where its operand read raises (R67). -/
theorem stepOn_of_operand_raised {t : State} (ok : s.fault = none)
    (raised : readOperand c ⟨some (s.byteAt s.pc), s.pc⟩ e.form (s.withPc a) = .raised t) : stepOn c s = .next t :=
  stepWith_of_raised ok (by rw [fetchDecode_of_entry valid entry next, raised, Res.bind_raised])

/-- A step ends where the advance of PC past its operand overflows (R68). -/
theorem stepOn_of_operand_overflow {i : Instr} (ok : s.fault = none)
    (read : readOperand c ⟨some (s.byteAt s.pc), s.pc⟩ e.form (s.withPc a) = .ok i (s.withPc a))
    (overflows : seq16 c a e.form.oplen = none) :
    stepOn c s = .next ((s.withPc a).raise (Site.overflow ⟨some (s.byteAt s.pc), s.pc⟩ a e.form.oplen)) := by
  refine stepWith_of_raised ok ?_
  rw [fetchDecode_of_entry valid entry next, read, Res.bind_ok, advancePc_none overflows, Res.bind_raised]
  rfl

end

end Sys2Proof.Machine
end

section
/-! PROOF. The memory obligations (20_memory.md): the program load, reads and writes of flat memory, and the order in which
the accesses of an operand, a push and a pop raise. -/

namespace Sys2Proof.Machine

/-- Settles O14: the load asks for the image's length before it does anything. -/
theorem oversizedImageIsRefused : Obligations.OversizedImageIsRefused :=
  fun _ _ oversized => if_neg (Nat.not_le_of_gt oversized)

/-- Settles O31: a write is one store to canonical memory, which `State.byteAt_withByte` reads back. -/
theorem readAfterWrite : Obligations.ReadAfterWrite := by
  intro c site s a v wf valid
  refine ⟨s.withByte a v, writeByte_valid site v s valid, ?readBack, fun b other => State.byteAt_withByte_other other,
    State.wf_withByte wf, rfl⟩
  case readBack => rw [readByte_valid site _ valid, State.byteAt_withByte wf, if_pos rfl]

/-- Settles O32: both accesses go through, or the second raises once the first is done (`SecondRaises`). -/
theorem wordAccessOrder : Obligations.WordAccessOrder := by
  intro c site s a v first
  simp only [← word_eq_ofNat, ← lowByte_eq_ofNat, ← highByte_eq_ofNat]
  refine ⟨fun b next second => ?bothValid, fun b next bad => ?secondInvalid, fun overflows => ?secondOverflows⟩
  case bothValid => exact ⟨readWord_valid s first next second, writeBytes_two_valid _ _ s first next second⟩
  case secondInvalid => exact (SecondRaises.invalid next bad).writeBytes _ _ s first
  case secondOverflows =>
    have raises : SecondRaises c site a (site.overflow a 1) := .overflow overflows
    exact ⟨raises.readWord s first, raises.writeBytes _ _ s first⟩

/-- Settles O59: the operand read raises at its second access, or goes through and the advance of PC past it overflows. -/
theorem laterOperandFaultsInOrder : Obligations.LaterOperandFaultsInOrder := by
  intro c s a ok valid next first
  refine ⟨fun mem => ?twoBytes, fun mem overflows => ?oneByte⟩
  case twoBytes =>
    obtain ⟨name, mk, entry⟩ := dispatchTable_two_byte_operand _ mem
    have secondRaises {r : FaultRecord} (raises : SecondRaises c ⟨some (s.byteAt s.pc), s.pc⟩ a r) :
        stepOn c s = .next ((s.withPc a).raise r) :=
      stepOn_of_operand_raised valid entry next ok (SecondRaises.readOperand (s := s.withPc a) raises mk first)
    exact ⟨fun overflows => secondRaises (.overflow overflows), fun b after bad => secondRaises (.invalid after bad),
      fun b after second overflows => stepOn_of_operand_overflow valid entry next ok
        (readOperand_two_byte_valid (s := s.withPc a) mk first after second) overflows⟩
  case oneByte =>
    obtain ⟨name, mk, entry⟩ := dispatchTable_one_byte_operand _ mem
    exact stepOn_of_operand_overflow valid entry next ok
      (readOperand_one_byte_valid (s := s.withPc a) mk first) overflows

/-- Settles O60: a push ends where its write raises and a pop where its read does, at the first access or the second. -/
theorem stackAccessFaultsInOrder : Obligations.StackAccessFaultsInOrder := by
  intro c s a16 wf
  refine ⟨fun p mem => ?pushes, fun i mem => ?pops⟩
  case pushes =>
    obtain ⟨w, value, ends⟩ := execOn_storeForms_of_raised c s a16 p mem
    refine ⟨fun bad => ends _ (push_of_raised (writeBytes_two_first_invalid _ _ s bad)), fun first r cause => ?second⟩
    case second =>
      have raises : SecondRaises c ⟨some p.1.opcode, s.pc - BitVec.ofNat 16 p.1.length⟩ s.sp r := by
        obtain ⟨overflows, rfl⟩ | ⟨b, next, bad, rfl⟩ := cause
        · exact .overflow overflows
        · exact .invalid next bad
      have low : (s.withByte s.sp (lowByte w)).byteAt s.sp = lowByte w := by
        rw [State.byteAt_withByte wf, if_pos rfl]
      refine ⟨_, ends _ (push_of_raised (raises.writeBytes _ _ s first)), rfl, State.wf_withByte wf, ?_,
        fun x other => State.byteAt_withByte_other other⟩
      rw [State.byteAt_raise, low, lowByte_toNat, value]
  case pops =>
    have ends := execOn_pops_of_raised c s i mem
    exact ⟨fun bad => ends _ (readBytes_two_first_invalid s bad),
      fun b first next bad => ends _ ((SecondRaises.invalid next bad).readBytes s first),
      fun first overflows => ends _ ((SecondRaises.overflow overflows).readBytes s first)⟩

end Sys2Proof.Machine
end

section
/-! SUPPORT. The decoder beside the encoder: `decode` by what the dispatch table holds, when an entry's operand is there to
be read, and the bytes that a parsed instruction encodes to (30_encoding.md R47 to R49, R60). -/

namespace Sys2Proof

open Sys2Proof.Machine

/-- The two bytes of a word built from two bytes are those bytes (20_memory.md R33). -/
@[simp] theorem leBytes_word (hi lo : Byte) : leBytes (word hi lo) = [lo, hi] := by
  rw [leBytes, lowByte_word, highByte_word]

/-- `unimplemented` is well formed for the opcodes without a behaviour (30_encoding.md R57). -/
theorem wellFormed_unimplemented_iff (op : Byte) :
    (Instr.unimplemented op).wellFormed = true ↔ dispatchTable op = none := by
  rw [dispatchTable_eq_none, Instr.wellFormed, Bool.not_eq_true']

/-- An opcode without a behaviour decodes to the instruction that carries it (log 17). -/
theorem decode_of_no_entry {op : Byte} (absent : dispatchTable op = none) (bs : List Byte) :
    decode (op :: bs) = .ok (.unimplemented op, bs) := by
  rw [decode, absent]

/-- An opcode with a behaviour decodes as its entry's form says (R47, R60). -/
theorem decode_of_entry {op : Byte} {e : Entry} (entry : dispatchTable op = some e) (bs : List Byte) :
    decode (op :: bs) = e.form.parse op bs := by
  rw [decode, entry]

/-- A form is parsed where `OPLEN` bytes are left (R47). -/
theorem Form.parse_total (op : Byte) : ∀ (form : Form) {bs : List Byte}, form.oplen ≤ bs.length →
    ∃ i rest, form.parse op bs = .ok (i, rest)
  | .f0 _, _, _ => ⟨_, _, rfl⟩
  | .f1 _, _ :: _, _ => ⟨_, _, rfl⟩
  | .f2 _, _ :: _ :: _, _ => ⟨_, _, rfl⟩

theorem Form.oplen_le_two (form : Form) : form.oplen ≤ 2 := by cases form <;> simp [Form.oplen]

/-- Every opcode byte decodes where two bytes follow it (R47, R60). -/
theorem decode_total (op : Byte) {bs : List Byte} (enough : 2 ≤ bs.length) : ∃ i rest, decode (op :: bs) = .ok (i, rest) := by
  cases entry : dispatchTable op with
  | none => exact ⟨_, _, decode_of_no_entry entry bs⟩
  | some e =>
    rw [decode_of_entry entry]
    exact e.form.parse_total op (e.form.oplen_le_two.trans enough)

/-- A two-byte operand is read back as the word it was written from (R48, R49). -/
theorem Form.parse_leBytes (op : Byte) (mk : Word → Instr) (v : Word) (rest : List Byte) :
    (Form.f2 mk).parse op (leBytes v ++ rest) = .ok (mk v, rest) := by
  simp only [leBytes, List.cons_append, List.nil_append, Form.parse, word_bytes]

/-- What a form parses is well formed, and encodes to the opcode and the bytes that were read (R48, R49). -/
theorem Form.encode_of_parse {op : Byte} : ∀ {form : Form} {bs : List Byte} {i : Instr} {rest : List Byte},
    form.Builds op → form.parse op bs = .ok (i, rest) → i.wellFormed = true ∧ i.encode ++ rest = op :: bs
  | .f0 _, _, _, _, ⟨bytes, wf, _⟩, rfl => ⟨wf, by rw [bytes, List.singleton_append]⟩
  | .f1 _, b :: _, _, _, builds, rfl =>
    have ⟨bytes, wf, _⟩ := builds b
    ⟨wf, by rw [bytes]; rfl⟩
  | .f2 _, lo :: hi :: _, _, _, builds, rfl =>
    have ⟨bytes, wf, _⟩ := builds (word hi lo)
    ⟨wf, by rw [bytes, leBytes_word]; rfl⟩

end Sys2Proof
end

section
/-! PROOF. The encoding obligations (30_encoding.md): decoding and encoding invert each other, every opcode byte decodes, how
the opcode space splits, and the instruction of a byte without a behaviour. -/

namespace Sys2Proof.Machine

/-- Settles O2: an `unimplemented` is well formed only where the table is empty, a word operand is read back from its two bytes
(`Form.parse_leBytes`), and in every other case the decoder computes. -/
theorem decodeInvertsEncode : Obligations.DecodeInvertsEncode := by
  intro i rest wf
  cases i with
  | unimplemented op => exact decode_of_no_entry ((wellFormed_unimplemented_iff op).1 wf) rest
  | jpA16 a16 => exact Form.parse_leBytes 0xC3 .jpA16 a16 rest
  | callA16 a16 => exact Form.parse_leBytes 0xCD .callA16 a16 rest
  | _ => rfl

/-- Settles O3: the opcode has no entry and stands alone, or its entry's form has parsed the operand
(`Form.encode_of_parse`). -/
theorem encodeInvertsDecode : Obligations.EncodeInvertsDecode := by
  intro bs i rest decoded
  cases bs with
  | nil => cases decoded
  | cons op bs =>
    cases entry : dispatchTable op with
    | none =>
      rw [decode_of_no_entry entry] at decoded
      cases decoded
      exact ⟨(wellFormed_unimplemented_iff op).2 entry, rfl⟩
    | some e =>
      rw [decode_of_entry entry] at decoded
      exact Form.encode_of_parse (dispatchTable_builds entry) decoded

/-- Settles O4: two bytes are enough for every form, and what decodes encodes to the bytes it was read from. -/
theorem threeBytesAlwaysDecode : Obligations.ThreeBytesAlwaysDecode := by
  intro x y z
  obtain ⟨i, rest, decoded⟩ := decode_total x (bs := [y, z]) le_rfl
  obtain ⟨-, bytes⟩ := encodeInvertsDecode _ _ _ decoded
  exact ⟨i, rest, decoded, (List.cons.inj bytes).1⟩

/-- Settles O1: each word decodes as the table and the encoding of its operand say. -/
theorem familyWordsDecode : Obligations.FamilyWordsDecode := by
  unfold Obligations.FamilyWordsDecode
  and_intros <;> rfl

/-- The bytes whose table entry has a behaviour are the admitted opcodes, in rising order (30_encoding.md R56). -/
theorem filter_dispatchTable_isSome :
    ((List.range 256).filter fun n => (dispatchTable (BitVec.ofNat 8 n)).isSome) = admittedOpcodes.map BitVec.toNat := by
  simp only [dispatchTable_isSome]
  decide

/-- Settles O5: the bytes with a behaviour are the 52 of `admittedOpcodes`, and the others are the rest of the 256. -/
theorem opcodeSpaceSplits52And204 : Obligations.OpcodeSpaceSplits52And204 := by
  have implemented :
      ((List.range 256).filter fun n => (dispatchTable (BitVec.ofNat 8 n)).isSome).length = 52 := by
    rw [filter_dispatchTable_isSome]
    rfl
  have total := List.length_eq_length_filter_add (l := List.range 256)
    fun n => (dispatchTable (BitVec.ofNat 8 n)).isSome
  simp only [List.length_range, implemented, Option.not_isSome] at total
  exact ⟨implemented, by omega, (dispatchTable_eq_none 0xCB).2 (by decide)⟩

/-- Settles O21: the meaning of `unimplemented` is to raise its fault where it stands. -/
theorem unimplementedInstructionRaisesItsFault : Obligations.UnimplementedInstructionRaisesItsFault := exec_unimplemented

end Sys2Proof.Machine
end

section
/-! SUPPORT. The step of 40_execute_loop.md R63, part by part: where the fetch, the opcode and its operand end it; that steps 1
to 6 build the instruction the decoder reads; what an admitted instruction leaves of CLK, `FAULT` and PC; and the clock of a
step. -/

namespace Sys2Proof.Machine

/-! ### Steps that end before step 7 -/

/-- A form with an operand raises where the first byte of that operand is invalid (40_execute_loop.md R67). -/
theorem readOperand_first_invalid {c : Config} {site : Site} {s : State} (bad : c.memValid s.pc = false) :
    ∀ {form : Form}, form.oplen ≠ 0 → readOperand c site form s = .raised (s.raise (site.outOfBounds s.pc))
  | .f0 _, operand => absurd rfl operand
  | .f1 _, _ => by rw [readOperand, readByte_invalid site s bad, Res.bind_raised]
  | .f2 _, _ => by
    rw [readOperand, readWord, readBytes_two_first_invalid s bad, Res.bind_raised, Res.bind_raised]

/-- The opcodes with an operand (30_encoding.md R48, R56). -/
theorem dispatchTable_operand {op : Byte} (mem : op ∈ ([0x3E, 0xDE, 0xEE, 0xFE, 0x28, 0x38, 0xC3, 0xCD] : List Byte)) :
    ∃ e, dispatchTable op = some e ∧ e.form.oplen ≠ 0 := by
  obtain one | two := (List.mem_append (s := [0x3E, 0xDE, 0xEE, 0xFE, 0x28, 0x38]) (t := [0xC3, 0xCD])).1 mem
  case inl =>
    obtain ⟨name, mk, entry⟩ := dispatchTable_one_byte_operand op one
    exact ⟨_, entry, nofun⟩
  case inr =>
    obtain ⟨name, mk, entry⟩ := dispatchTable_two_byte_operand op two
    exact ⟨_, entry, nofun⟩

/-- An admitted opcode has an entry (30_encoding.md R56). -/
theorem dispatchTable_of_admitted {op : Byte} (admitted : op ∈ admittedOpcodes) : ∃ e, dispatchTable op = some e := by
  rw [← Option.isSome_iff_exists, dispatchTable_isSome, List.contains_iff_mem]
  exact admitted

section
variable {c : Config} {s : State} (ok : s.fault = none)
include ok

/-- A step ends at step 1 where the fetch is out of bounds (40_execute_loop.md R64). -/
theorem stepOn_of_fetch_invalid (bad : c.memValid s.pc = false) :
    stepOn c s = .next (s.raise (Site.outOfBounds ⟨none, s.pc⟩ s.pc)) :=
  stepWith_of_raised ok (by rw [fetchDecode, readByte_invalid _ s bad, Res.bind_raised])

/-- A step ends at step 2 where the opcode has no behaviour: it raises, so step 8 adds nothing (R65, 60_exceptions.md R114). -/
theorem stepOn_of_no_entry (valid : c.memValid s.pc = true) (absent : dispatchTable (s.byteAt s.pc) = none) :
    stepOn c s = .next (s.raise (Site.unimplemented ⟨some (s.byteAt s.pc), s.pc⟩)) := by
  have fetched : fetchDecode c s = .ok (.unimplemented (s.byteAt s.pc)) s := by
    simp only [fetchDecode, readByte_valid _ s valid, Res.bind_ok, absent]
  exact stepWith_of_next (ex := execOn c) ok fetched rfl

/-- A step ends at step 3 where the advance of PC past the opcode overflows (R66). -/
theorem stepOn_of_opcode_overflow {e : Entry} (valid : c.memValid s.pc = true)
    (entry : dispatchTable (s.byteAt s.pc) = some e) (overflows : seq16 c s.pc 1 = none) :
    stepOn c s = .next (s.raise (Site.overflow ⟨some (s.byteAt s.pc), s.pc⟩ s.pc 1)) := by
  refine stepWith_of_raised ok ?_
  simp only [fetchDecode, readByte_valid _ s valid, Res.bind_ok, entry, prepare, advancePc_none overflows, Res.bind_raised]

end

/-! ### Steps 1 to 6 beside the decoder -/

/-- On this hardware steps 1 to 6 give the admitted instruction that the bytes at PC decode to, PC at the fall-through address
and OVR cleared (40_execute_loop.md R64 to R69). -/
theorem fetchDecode_of_decode {s : State} {i : Instr} {rest : List Byte} (admitted : ∀ op, i ≠ .unimplemented op)
    (decoded : decode [s.byteAt s.pc, s.byteAt (s.pc + 1), s.byteAt (s.pc + 2)] = .ok (i, rest)) :
    fetchDecode hardware s = .ok i ((s.withPc (s.pc + BitVec.ofNat 16 i.length)).withOvr 0) := by
  rw [fetchDecode_hardware]
  cases entry : dispatchTable (s.byteAt s.pc) with
  | none =>
    rw [decode_of_no_entry entry] at decoded
    cases decoded
    exact absurd rfl (admitted _)
  | some e =>
    rw [decode_of_entry entry] at decoded
    have builds := dispatchTable_builds entry
    obtain ⟨name, i | mk | mk⟩ := e <;> cases decoded
    · rw [Instr.length, builds.1]; rfl
    · rw [Instr.length, (builds _).1]; rfl
    · rw [Instr.length, (builds _).1]; rfl

/-! ### What an admitted instruction leaves -/

/-- CALL, RST and PUSH leave CLK and `FAULT` on this hardware (43_control_stack.md R106, R108, R109). -/
theorem exec_stores_keep (s : State) (a16 : Word) : ∀ i ∈ (storeForms s a16).map Prod.fst,
    ∃ t, exec i s = .next t ∧ t.clk = s.clk ∧ t.fault = s.fault := by
  rw [List.forall_mem_map]
  intro p mem
  obtain ⟨w, target, run⟩ := exec_storeForms s a16 p mem
  exact ⟨_, run, by simp [State.pushed], by simp [State.pushed]⟩

/-- Every admitted instruction completes on this hardware, and leaves CLK and `FAULT` (40_execute_loop.md R73,
60_exceptions.md R115, R116). -/
theorem exec_admitted_keeps (s : State) {i : Instr} (admitted : ∀ op, i ≠ .unimplemented op) :
    ∃ t, exec i s = .next t ∧ t.clk = s.clk ∧ t.fault = s.fault := by
  cases i with
  | unimplemented op => exact absurd rfl (admitted op)
  | jrZ e8 =>
    obtain ⟨target, run⟩ := exec_jumps s e8 0 (.jrZ e8) (by simp)
    exact ⟨_, run, rfl, rfl⟩
  | jrC e8 =>
    obtain ⟨target, run⟩ := exec_jumps s e8 0 (.jrC e8) (by simp)
    exact ⟨_, run, rfl, rfl⟩
  | ret => exact ⟨_, exec_ret s, rfl, rfl⟩
  | popBC => exact ⟨_, exec_popBC s, rfl, rfl⟩
  | popDE => exact ⟨_, exec_popDE s, rfl, rfl⟩
  | popHL => exact ⟨_, exec_popHL s, rfl, rfl⟩
  | callA16 a16 => exact exec_stores_keep s a16 _ (by simp [storeForms])
  | rst00 | rst08 | rst10 | rst18 | rst20 | rst28 | rst30 | rst38 | pushBC | pushDE | pushHL =>
    exact exec_stores_keep s 0 _ (by simp [storeForms, rstForms, pushForms])
  | _ => exact ⟨_, rfl, rfl, rfl⟩

/-- The one-byte opcodes that write PC: RET, POP, RST (90_conflicts.md C2). -/
def oneBytePcWriters : List Byte := [0xC9, 0xC1, 0xD1, 0xE1, 0xC7, 0xCF, 0xD7, 0xDF, 0xE7, 0xEF, 0xF7, 0xFF]

/-- An instruction without operand that is none of RET, POP and RST leaves PC (40_execute_loop.md R68, 90_conflicts.md C2). -/
theorem exec_keeps_pc (s : State) {i : Instr} (alone : i.operandBytes = []) (plain : i.opcode ∉ oneBytePcWriters) :
    ∃ t, exec i s = .next t ∧ t.pc = s.pc := by
  cases i with
  | jrZ _ | jrC _ | jpA16 _ | callA16 _ => cases alone
  | ret | popBC | popDE | popHL | rst00 | rst08 | rst10 | rst18 | rst20 | rst28 | rst30 | rst38 =>
    exact absurd (by decide) plain
  | pushBC => exact ⟨_, exec_pushBC s, by simp⟩
  | pushDE => exact ⟨_, exec_pushDE s, by simp⟩
  | pushHL => exact ⟨_, exec_pushHL s, by simp⟩
  | _ => exact ⟨_, rfl, rfl⟩

/-- Step 8 leaves PC (40_execute_loop.md R71). -/
@[simp] theorem accountUnlessFaulted_pc (c : Config) (op : Byte) (t : State) :
    (accountUnlessFaulted c op t).pc = t.pc := by
  unfold accountUnlessFaulted
  split <;> rfl

/-! ### The clock -/

/-- A step that answers a next state started without a fault (40_execute_loop.md R62). -/
theorem fault_none_of_stepOn {c : Config} {s t : State} (run : stepOn c s = .next t) : s.fault = none := by
  cases fault : s.fault with
  | none => rfl
  | some r => cases run.symm.trans (stepWith_of_fault fault)

/-- The clock of a step, on any parameters: its cost is added, unless it raised (40_execute_loop.md R71, 60_exceptions.md
R117). -/
theorem stepOn_clk {c : Config} {s t : State} (run : stepOn c s = .next t) :
    (t.fault = none → t.clk = s.clk + stepCost c (s.byteAt s.pc) t.ovr) ∧ (t.fault ≠ none → t.clk = s.clk) := by
  obtain ⟨u, clk, ⟨ran, raised⟩ | ⟨ran, -, -⟩ | ran⟩ :=
    (closed_clk s.clk).stepOn (c := c) rfl (fault_none_of_stepOn run) <;> obtain rfl := next_unique run ran
  case inl => exact ⟨fun fine => by simp [fine] at raised, fun _ => clk⟩
  case inr.inl => exact ⟨nofun, fun _ => rfl⟩
  case inr.inr =>
    rw [accountUnlessFaulted_fault]
    cases fault : u.fault with
    | none =>
      rw [accountUnlessFaulted_none fault]
      exact ⟨fun _ => congrArg (· + _) clk, fun raised => absurd rfl raised⟩
    | some r =>
      rw [accountUnlessFaulted_some fault]
      exact ⟨nofun, fun _ => clk⟩

/-- A run of one more step that ends in a next state: its first step does, and the rest of the run. -/
theorem runOn_succ_next {c : Config} {n : Nat} {s t : State} (run : runOn c (n + 1) s = .next t) :
    ∃ u, stepOn c s = .next u ∧ runOn c n u = .next t := by
  rw [runOn_succ] at run
  cases stepped : stepOn c s with
  | next u =>
    rw [stepped] at run
    exact ⟨u, rfl, run⟩
  | fault r => rw [stepped] at run; cases run
  | refused r => rw [stepped] at run; cases run

/-- No step is enabled in a faulted state, so a run that ends without a fault starts without one (40_execute_loop.md R62). -/
theorem fault_none_of_runOn {c : Config} {n : Nat} {s t : State} (run : runOn c n s = .next t) (fine : t.fault = none) :
    s.fault = none := by
  cases n with
  | zero =>
    cases run
    exact fine
  | succ n =>
    obtain ⟨u, stepped, -⟩ := runOn_succ_next run
    exact fault_none_of_stepOn stepped

/-- The costs of a run are its first step's and those of the rest (40_execute_loop.md R74). -/
theorem totalCost_of_next {c : Config} {n : Nat} {s u : State} (stepped : stepOn c s = .next u) :
    totalCost c (n + 1) s = stepCost c (s.byteAt s.pc) u.ovr + totalCost c n u := by
  simp only [totalCost, stepped]

end Sys2Proof.Machine
end

section
/-! PROOF. The step obligations (40_execute_loop.md): the clock, the instruction a step runs, PC, that every instruction
completes, and where a step ends before its behaviour. -/

namespace Sys2Proof.Machine

/-! ### The clock -/

/-- Settles O10: step 8 adds the cost (`stepOn_clk`). -/
theorem completedStepAddsItsCost : Obligations.CompletedStepAddsItsCost := fun _ _ _ => stepOn_clk

/-- Settles O11, by induction over the steps: no state before the last has a fault, so each step adds its cost. -/
theorem clockIsSumOfStepCosts : Obligations.ClockIsSumOfStepCosts := by
  intro c n
  induction n with
  | zero =>
    intro s t run _
    cases run
    exact (BitVec.add_zero _).symm
  | succ n ih =>
    intro s t run fine
    obtain ⟨u, stepped, rest⟩ := runOn_succ_next run
    have clk : u.clk = s.clk + stepCost c (s.byteAt s.pc) u.ovr := (stepOn_clk stepped).1 (fault_none_of_runOn rest fine)
    rw [ih u t rest fine, clk, totalCost_of_next stepped, BitVec.add_assoc]

/-! ### The instruction a step runs -/

/-- Settles O35: an admitted instruction completes by `exec_admitted_keeps`, an opcode without a behaviour by raising. -/
theorem everyInstructionCompletes : Obligations.EveryInstructionCompletes := by
  intro i s _
  by_cases admitted : ∀ op, i ≠ .unimplemented op
  · obtain ⟨t, run, clk, fault⟩ := exec_admitted_keeps s admitted
    exact ⟨t, run, clk, fun _ => fault⟩
  · obtain ⟨op, rfl⟩ : ∃ op, i = .unimplemented op := by simpa using admitted
    exact ⟨_, exec_unimplemented op s, rfl, fun other => absurd rfl (other op)⟩

/-- Settles O6: steps 1 to 6 are the decoder (`fetchDecode_of_decode`), or the opcode has no entry and raises where it
stands. -/
theorem stepRunsDecodedInstruction : Obligations.StepRunsDecodedInstruction := by
  intro s i rest ok decoded
  refine ⟨fun admitted => ?admitted, fun op carries => ?unimplemented⟩
  case admitted =>
    obtain ⟨t, run, -⟩ := exec_admitted_keeps { s with pc := s.pc + BitVec.ofNat 16 i.length, ovr := 0 } admitted
    have stepped : step s = .next (accountUnlessFaulted hardware i.opcode t) :=
      stepWith_of_next ok (fetchDecode_of_decode admitted decoded) run
    rw [stepped, run]
    rfl
  case unimplemented =>
    subst carries
    obtain ⟨wf, bytes⟩ := encodeInvertsDecode _ _ _ decoded
    obtain rfl : op = s.byteAt s.pc := (List.cons.inj bytes).1
    rw [step_eq_stepOn, exec_unimplemented]
    exact stepOn_of_no_entry ok rfl ((wellFormed_unimplemented_iff _).1 wf)

/-- Settles O9: steps 1 to 6 move PC by one for a form without operand, and the instruction leaves it there. -/
theorem plainOneByteStepAdvancesPcByOne : Obligations.PlainOneByteStepAdvancesPcByOne := by
  rintro s t ⟨name, i | mk | mk⟩ ok entry alone plain run
  case f1 => cases alone
  case f2 => cases alone
  case f0 =>
    have fetched : fetchDecode hardware s = .ok i ((s.withPc (s.pc + 1)).withOvr 0) := by
      rw [fetchDecode_hardware, entry]
    obtain ⟨bytes, -⟩ := dispatchTable_builds entry
    obtain ⟨opcode, noOperand⟩ := List.cons.inj bytes
    obtain ⟨u, ran, pc⟩ := exec_keeps_pc ((s.withPc (s.pc + 1)).withOvr 0) noOperand (by rw [opcode]; exact plain)
    have stepped : step s = .next (accountUnlessFaulted hardware i.opcode u) := stepWith_of_next ok fetched ran
    obtain rfl := next_unique run stepped
    rw [accountUnlessFaulted_pc, pc]
    rfl

/-! ### Steps that end before their behaviour -/

/-- Settles O20: the table has no entry outside the admitted set, and the step ends at decode (`stepOn_of_no_entry`). -/
theorem unimplementedOpcodeFaultsAtDecode : Obligations.UnimplementedOpcodeFaultsAtDecode := by
  intro c s ok valid outside
  have absent : dispatchTable (s.byteAt s.pc) = none := (dispatchTable_eq_none _).2 (by simpa using outside)
  exact ⟨_, stepOn_of_no_entry ok valid absent, rfl, rfl, rfl⟩

/-- Settles O22: the step ends at its fetch. -/
theorem fetchOutOfBoundsFaults : Obligations.FetchOutOfBoundsFaults := fun _ _ => stepOn_of_fetch_invalid

/-- Settles O23: `0xFFFF + 1` has no value under `Fault`, so the step ends at step 3 (`stepOn_of_opcode_overflow`). -/
theorem opcodeAtTopOverflowsUnderFault : Obligations.OpcodeAtTopOverflowsUnderFault := by
  intro c s ok policy valid top admitted
  have overflows : seq16 c 0xFFFF 1 = none := seq16_fault policy (by decide)
  rw [← top] at valid admitted overflows ⊢
  obtain ⟨e, entry⟩ := dispatchTable_of_admitted admitted
  exact stepOn_of_opcode_overflow ok valid entry overflows

/-- Settles O24: the step ends at the first byte of its operand (`readOperand_first_invalid`), with PC past the opcode. -/
theorem operandOutOfBoundsFaults : Obligations.OperandOutOfBoundsFaults := by
  intro c s a ok valid next bad mem
  obtain ⟨e, entry, operand⟩ := dispatchTable_operand mem
  exact stepOn_of_operand_raised valid entry next ok (readOperand_first_invalid (s := s.withPc a) bad operand)

end Sys2Proof.Machine
end

section
/-! PROOF. The basic obligations (41_basic.md): NOP and LD A,d8. Neither sets an override (log 5), so OVR keeps what the step
cleared it to and step 8 adds the base cost. -/

namespace Sys2Proof.Machine

/-- Where a rule says that a behaviour sets no override, it leaves OVR (40_execute_loop.md R70, log 5). -/
theorem overrideAfter_of_setsNoOverride {op : Byte} {taken : Bool} (none_set : setsNoOverride op taken = true) (ovr : Word) :
    overrideAfter hardware op taken ovr = ovr :=
  if_pos (if_pos none_set)

/-- A step whose OVR is still clear at step 8 costs its opcode's base cost (40_execute_loop.md R71). -/
theorem stepCost_zero (c : Config) (op : Byte) : stepCost c op 0 = c.baseCost op := if_pos rfl

/-- Settles O38: with no override set, OVR too is as it was. -/
theorem nopAndLoadResult : Obligations.NopAndLoadResult := by
  intro s d8
  rw [exec_nop, exec_ldAd8, overrideAfter_of_setsNoOverride (by decide), overrideAfter_of_setsNoOverride (by decide)]
  exact ⟨rfl, rfl⟩

/-- Settles O37: steps 1 to 6 move PC past the opcode and clear OVR, NOP writes nothing (`nopAndLoadResult`), and step 8 adds
the base cost. -/
theorem nopStepChangesOnlyPcAndClock : Obligations.NopStepChangesOnlyPcAndClock := by
  intro s ok opcode
  have fetched : fetchDecode hardware s = .ok .nop ((s.withPc (s.pc + 1)).withOvr 0) := by
    rw [fetchDecode_hardware, opcode]
    rfl
  obtain ⟨ran, -⟩ := nopAndLoadResult ((s.withPc (s.pc + 1)).withOvr 0) 0
  have fine : ((s.withPc (s.pc + 1)).withOvr 0).fault = none := ok
  rw [step, stepWith_of_next ok fetched ran, accountUnlessFaulted_none fine, State.withOvr_ovr, stepCost_zero]
  rfl

end Sys2Proof.Machine
end

section
/-! SUPPORT. What each operation of the flag algebra (42_alu_flags.md) leaves in each flag, the record of an opcode without a
behaviour, and what the ALU families do. -/

namespace Sys2Proof.Machine

/-! ### Single bits -/

theorem Flag.pos_lt (x : Flag) : x.pos < 8 := by cases x <;> decide

/-- The mask of a flag holds its bit and no other. -/
theorem Flag.getLsbD_mask (x : Flag) (k : Nat) : x.mask.getLsbD k = decide (x.pos = k) := by
  rw [show x.mask = BitVec.twoPow 8 x.pos from rfl, BitVec.getLsbD_twoPow, decide_eq_true x.pos_lt, Bool.true_and]

/-- R79, bit by bit: `setflag` writes the flag's bit and keeps every other. -/
theorem getLsbD_setFlag (x : Flag) (v : Bool) (f : Byte) (k : Nat) :
    (setFlag x v f).getLsbD k = if k = x.pos then v else f.getLsbD k := by
  by_cases own : k = x.pos
  · subst own
    cases v <;> simp [setFlag, x.getLsbD_mask, x.pos_lt]
  · have other : x.mask.getLsbD k = false := by simpa [x.getLsbD_mask] using Ne.symm own
    cases v
    · have low : f.getLsbD k = true → k < 8 := BitVec.lt_of_getLsbD
      simpa [setFlag, other, own] using low
    · simp [setFlag, other, own]

/-! ### The flags of each operation -/

/-- R82: the 16-bit add truncates the exact sum. -/
theorem add16Result_toNat (dst addend : Word) :
    (add16Result dst addend).toNat = (dst.toNat + addend.toNat) % 65536 := BitVec.toNat_ofNat _ 16

/-- R82: what the 16-bit add leaves in each flag. -/
theorem getFlag_add16Flags (dst addend : Word) (f : Byte) :
    (getFlag .carry (add16Flags dst addend f) = true ↔ dst.toNat + addend.toNat > 0xFFFF) ∧
    (getFlag .halfCarry (add16Flags dst addend f) = true ↔
      (dst.toNat + addend.toNat) % 65536 % 16 + addend.toNat % 16 > 0xF) ∧
    getFlag .negative (add16Flags dst addend f) = false ∧
    getFlag .zero (add16Flags dst addend f) = getFlag .zero f := by
  simp [add16Flags, lowNibbleW_eq, add16Result_toNat]

/-- R84: the four tests of subtract-with-borrow are independent. -/
theorem getFlag_sbcFlags (a x f : Byte) :
    getFlag .negative (sbcFlags a x f) = true ∧ (getFlag .zero (sbcFlags a x f) = true ↔ x = a) ∧
    (getFlag .carry (sbcFlags a x f) = true ↔ x.toNat > a.toNat) ∧
    (getFlag .halfCarry (sbcFlags a x f) = true ↔ x.toNat % 16 > a.toNat % 16) := by
  simp [sbcFlags, lowNibble_eq]

/-- R92: a compare sets NEGATIVE whatever its parameter and its chain do. -/
theorem getFlag_negative_cpFlags (u : CpUnfired) (a x f : Byte) : getFlag .negative (cpFlags u a x f) = true := by
  simp [cpFlags]

/-- R92: the final write of NEGATIVE leaves the other flags as the chain left them. -/
theorem getFlag_cpFlags_preserve {y : Flag} (other : y ≠ .negative) (a x f : Byte) :
    getFlag y (cpFlags .preserve a x f) = getFlag y (cpChain a x f) := by
  simp [cpFlags, other]

/-- R92: the three flags of the chain, cleared. -/
def clearChainFlags (f : Byte) : Byte := setFlag .halfCarry false (setFlag .carry false (setFlag .zero false f))

theorem cpFlags_clear (a x f : Byte) : cpFlags .clear a x f = cpFlags .preserve a x (clearChainFlags f) := rfl

theorem getFlag_clearChainFlags {y : Flag} (other : y ≠ .negative) (f : Byte) : getFlag y (clearChainFlags f) = false := by
  cases y
  case negative => exact absurd rfl other
  all_goals simp [clearChainFlags]

/-- R92 under `Preserve`: a flag is set where the chain fired on it, or where it was set before. -/
theorem cpFlags_preserve_iff (a x f : Byte) :
    (getFlag .zero (cpFlags .preserve a x f) = true ↔ x = a ∨ getFlag .zero f = true) ∧
    (getFlag .carry (cpFlags .preserve a x f) = true ↔ a.toNat < x.toNat ∨ getFlag .carry f = true) ∧
    (getFlag .halfCarry (cpFlags .preserve a x f) = true ↔
      (x.toNat < a.toNat ∧ x.toNat % 16 > a.toNat % 16) ∨ getFlag .halfCarry f = true) := by
  obtain ⟨zero, carry, halfCarry, -⟩ := getFlag_cpChain a x f
  rw [getFlag_cpFlags_preserve (y := .zero) nofun, getFlag_cpFlags_preserve (y := .carry) nofun,
    getFlag_cpFlags_preserve (y := .halfCarry) nofun]
  exact ⟨zero, carry, halfCarry⟩

/-- R92 under `Clear`: a flag is set exactly where the chain fired on it. -/
theorem cpFlags_clear_iff (a x f : Byte) :
    (getFlag .zero (cpFlags .clear a x f) = true ↔ x = a) ∧
    (getFlag .carry (cpFlags .clear a x f) = true ↔ a.toNat < x.toNat) ∧
    (getFlag .halfCarry (cpFlags .clear a x f) = true ↔ x.toNat < a.toNat ∧ x.toNat % 16 > a.toNat % 16) := by
  simpa only [cpFlags_clear, getFlag_clearChainFlags (y := .zero) nofun, getFlag_clearChainFlags (y := .carry) nofun,
    getFlag_clearChainFlags (y := .halfCarry) nofun, Bool.false_eq_true, or_false] using
    cpFlags_preserve_iff a x (clearChainFlags f)

/-! ### The fault of an opcode without a behaviour -/

/-- The record of an opcode outside the admitted set is a legal one (60_exceptions.md R113, R114). -/
theorem Site.unimplemented_legal {op : Byte} (outside : admittedOpcodes.contains op = false) (p : Word) :
    (Site.unimplemented ⟨some op, p⟩).legal = true := by
  simpa [Site.unimplemented, FaultRecord.legal] using outside

/-! ### The families -/

/-- The 16-bit adds, each with its addend as a number (R82, R83). -/
theorem exec_addForms (s : State) : ∀ p ∈ addForms s, ∃ x : Addend, (s.addend x).toNat = p.2 ∧
    exec p.1 s =
      .next (((s.withF (add16Flags (s.pair .hl) (s.addend x) s.f)).setPair .hl
        (add16Result (s.pair .hl) (s.addend x))).withOvr (overrideAfter hardware p.1.opcode false s.ovr)) := by
  simp only [addForms, List.forall_mem_cons]
  exact ⟨⟨.pair .bc, s.pair_toNat .bc, exec_addHLBC s⟩, ⟨.pair .de, s.pair_toNat .de, exec_addHLDE s⟩,
    ⟨.pair .hl, s.pair_toNat .hl, exec_addHLHL s⟩, ⟨.sp, rfl, exec_addHLSP s⟩, nofun⟩

/-- The address of the memory operand (R81; 10_state.md R15). -/
theorem State.pair_hl_eq_ofNat (s : State) : s.pair .hl = BitVec.ofNat 16 (s.l.toNat * 256 + s.h.toNat) :=
  word_eq_ofNat s.l s.h

/-- Writing HL, `L` holds the high byte and `H` the low one (10_state.md R15). -/
theorem State.setPair_hl_toNat (s : State) (v : Word) :
    (s.setPair .hl v).l.toNat * 256 + (s.setPair .hl v).h.toNat = v.toNat := by
  have written := (s.setPair .hl v).pair_toNat .hl
  rw [State.pair_setPair, if_pos rfl] at written
  exact written.symm

section
variable {c : Config} {s : State}

/-- Where the memory operand is invalid, reading it raises (R81; 60_exceptions.md R115). -/
theorem src8_atHL_invalid (bad : c.memValid (s.pair .hl) = false) (site : Site) :
    src8 c site .atHL s = .raised (s.raise (site.outOfBounds (s.pair .hl))) :=
  readByte_invalid site s bad

/-- The three behaviours with a memory operand read it first, and end where that raises (R86, R90, R94). -/
theorem execOn_atHL_of_raised (bad : c.memValid (s.pair .hl) = false) : ∀ i ∈ [Instr.sbcAAtHL, .xorAtHL, .cpAtHL],
    execOn c i s = .next (s.raise (Site.outOfBounds ⟨some i.opcode, s.pc - 1⟩ (s.pair .hl))) := by
  simp only [List.forall_mem_cons]
  refine ⟨behave_of_raised (i := .sbcAAtHL) ?sbc, behave_of_raised (i := .xorAtHL) ?xor,
    behave_of_raised (i := .cpAtHL) ?cp, nofun⟩
  case sbc =>
    rw [sbc, src8_atHL_invalid bad]
    rfl
  case xor =>
    rw [xorWith, src8_atHL_invalid bad]
    rfl
  case cp =>
    rw [cp, src8_atHL_invalid bad]
    rfl

/-- A compare whose operand reads as `x` writes the flags of comparing with `x` (R92). -/
theorem behave_cp {src : Src8} {x : Byte} (read : ∀ site, src8 c site src s = .ok x s) (i : Instr) :
    behave c i (cp c src) s =
      .next ((s.withF (cpFlags c.cpUnfired s.a x s.f)).withOvr (overrideAfter c i.opcode false s.ovr)) := by
  refine behave_of_ok (t := s.withF (cpFlags c.cpUnfired s.a x s.f)) ?_
  rw [cp, read]
  rfl

/-- Compare on any parameters under which the memory operand is valid (R92 to R95). -/
theorem execOn_cpForms (valid : c.memValid (s.pair .hl) = true) (d8 : Byte) : ∀ p ∈ cpForms s d8,
    execOn c p.1 s =
      .next ((s.withF (cpFlags c.cpUnfired s.a p.2 s.f)).withOvr (overrideAfter c p.1.opcode false s.ovr)) := by
  have atHL : ∀ site, src8 c site .atHL s = .ok (s.byteAt (s.pair .hl)) s := fun site => readByte_valid site s valid
  simp only [cpForms, State.atHL_eq, List.forall_mem_cons]
  exact ⟨behave_cp (src := .reg .b) (fun _ => rfl) .cpB, behave_cp (src := .reg .c) (fun _ => rfl) .cpC,
    behave_cp (src := .reg .d) (fun _ => rfl) .cpD, behave_cp (src := .reg .e) (fun _ => rfl) .cpE,
    behave_cp (src := .reg .h) (fun _ => rfl) .cpH, behave_cp (src := .reg .l) (fun _ => rfl) .cpL,
    behave_cp atHL .cpAtHL, behave_cp (src := .reg .a) (fun _ => rfl) .cpA,
    behave_cp (src := .imm d8) (fun _ => rfl) (.cpd8 d8), nofun⟩

end

/-- A relative jump whose pattern the whole flag byte does not match leaves PC and OVR (43_control_stack.md R102). -/
theorem exec_relativeJump_not_taken {s : State} (e8 : Byte) (notZero : s.f ≠ 0x80) (notCarry : s.f ≠ 0x10) :
    ∀ j ∈ [Instr.jrZ e8, .jrC e8], ∃ u, exec j s = .next u ∧ u.pc = s.pc ∧ u.ovr = s.ovr := by
  simp only [List.forall_mem_cons]
  refine ⟨?jrZ, ?jrC, nofun⟩
  case jrZ =>
    rw [exec_jrZ, if_neg notZero]
    exact ⟨_, rfl, rfl, overrideAfter_of_setsNoOverride (op := 0x28) (taken := false) (by decide) s.ovr⟩
  case jrC =>
    rw [exec_jrC, if_neg notCarry]
    exact ⟨_, rfl, rfl, overrideAfter_of_setsNoOverride (op := 0x38) (taken := false) (by decide) s.ovr⟩

end Sys2Proof.Machine
end

section
/-! PROOF. The obligations of the ALU and its flags (42_alu_flags.md): the invariant, the invalid memory operand, the result
of each family, and `setflag`. -/

namespace Sys2Proof.Machine

/-- Settles O17: the invariant is three closed properties together, and the two writes a behaviour does not make, the fault of
an opcode without a behaviour and the clock, keep it too (`stepOn_keeps`). -/
theorem stepKeepsTheInvariant : Obligations.StepKeepsTheInvariant := by
  intro s t inv run
  rw [step_eq_stepOn] at run
  refine stepOn_keeps (P := State.Inv) (closed_wf.and (closed_unused.and closed_legal)) ?unimplemented ?clock inv run
  case unimplemented =>
    rintro u outside ⟨wf, unused, -⟩
    exact ⟨wf, unused, Site.unimplemented_legal outside u.pc⟩
  case clock => exact fun _ _ holds => holds

/-- Settles O25: the operand is read before anything is written (`execOn_atHL_of_raised`). -/
theorem memoryOperandOutOfBoundsFaults : Obligations.MemoryOperandOutOfBoundsFaults := by
  intro c s bad i mem
  rw [← s.pair_hl_eq_ofNat] at bad ⊢
  exact execOn_atHL_of_raised bad i mem

/-- Settles O39: HL holds the truncated sum (`add16Result_toNat`) and `F` what `getFlag_add16Flags` says. -/
theorem sixteenBitAddResult : Obligations.SixteenBitAddResult := by
  intro s p mem
  obtain ⟨x, addend, run⟩ := exec_addForms s p mem
  have hl : (s.pair .hl).toNat = s.l.toNat * 256 + s.h.toNat := s.pair_toNat .hl
  have flags := getFlag_add16Flags (s.pair .hl) (s.addend x) s.f
  have sum := add16Result_toNat (s.pair .hl) (s.addend x)
  rw [hl, addend] at flags sum
  refine ⟨_, run, ?inHL, flags⟩
  case inHL =>
    rw [State.withOvr_l, State.withOvr_h, State.setPair_hl_toNat]
    exact sum

/-- Settles O40: every form writes the flags of `getFlag_sbcFlags` and no register. -/
theorem subtractWithBorrowResult : Obligations.SubtractWithBorrowResult := by
  intro s d8 p mem
  exact ⟨_, exec_sbcForms s d8 p mem, rfl, getFlag_sbcFlags s.a p.2 s.f⟩

/-- Settles O41: A is the exclusive-or of its two operands, and `F` the byte of `xorFlags_eq`. -/
theorem exclusiveOrResult : Obligations.ExclusiveOrResult := by
  intro s d8 p mem
  exact ⟨_, exec_xorForms s d8 p mem, fun k => BitVec.getLsbD_xor, xorFlags_eq (s.a ^^^ p.2)⟩

/-- Settles O42: on this hardware `CP_UNFIRED` is `Preserve`, so the chain works on the flags as they were. -/
theorem compareResult : Obligations.CompareResult := by
  intro s d8 p mem
  exact ⟨_, exec_cpForms s d8 p mem, rfl, getFlag_negative_cpFlags .preserve s.a p.2 s.f, cpFlags_preserve_iff s.a p.2 s.f⟩

/-- Settles O43: under `Clear` the chain works on cleared flags (`cpFlags_clear_iff`). -/
theorem compareUnderClearResult : Obligations.CompareUnderClearResult := by
  intro c s d8 clear valid p mem
  have run := execOn_cpForms (valid (s.pair .hl)) d8 p mem
  rw [clear] at run
  exact ⟨_, run, rfl, getFlag_negative_cpFlags .clear s.a p.2 s.f, cpFlags_clear_iff s.a p.2 s.f⟩

/-- Settles O44: a compare sets NEGATIVE, and in both bytes a relative jump is taken on that flag is clear. -/
theorem noRelativeJumpRightAfterCompare : Obligations.NoRelativeJumpRightAfterCompare := by
  intro s t d8 e8 p mem run
  obtain rfl := next_unique run (exec_cpForms s d8 p mem)
  have negative := getFlag_negative_cpFlags .preserve s.a p.2 s.f
  have differs : ∀ f : Byte, getFlag .negative f = false → cpFlags .preserve s.a p.2 s.f ≠ f := by
    rintro _ clear rfl
    rw [negative] at clear
    cases clear
  exact exec_relativeJump_not_taken e8 (differs 0x80 rfl) (differs 0x10 rfl)

/-- Settles O34: bit by bit, `getLsbD_setFlag`; a second call changes nothing (`setFlag_setFlag`). -/
theorem setFlagWritesOneBit : Obligations.SetFlagWritesOneBit := by
  intro x v f
  refine ⟨?own, fun k other => ?others, setFlag_setFlag x v v f⟩
  case own => rw [getLsbD_setFlag, if_pos rfl]
  case others => rw [getLsbD_setFlag, if_neg other]

end Sys2Proof.Machine
end

section
/-! SUPPORT. What a pushed word leaves in memory, the control families as one equation each on this hardware, and where a pop
and a taken relative jump raise on any parameters (43_control_stack.md R97 to R110). -/

namespace Sys2Proof.Machine

/-! ### A word in memory -/

/-- A word stored at `a` in canonical memory: its low byte at `a`, its high byte above it (20_memory.md R33, R37). -/
theorem State.byteAt_stored {s : State} (wf : s.mem.wf = true) (a w : Word) :
    ((s.withByte a (lowByte w)).withByte (a + 1) (highByte w)).byteAt a = lowByte w ∧
    ((s.withByte a (lowByte w)).withByte (a + 1) (highByte w)).byteAt (a + 1) = highByte w := by
  have apart : a ≠ a + 1 := by bv_omega
  refine ⟨?low, ?high⟩
  case low => rw [State.byteAt_withByte_other apart, State.byteAt_withByte wf, if_pos rfl]
  case high => rw [State.byteAt_withByte (State.wf_withByte wf), if_pos rfl]

/-- What a push leaves in memory: the word's low byte at the old SP, its high byte above it (R97). -/
theorem State.byteAt_pushed {s : State} (wf : s.mem.wf = true) (w target : Word) :
    (s.pushed w target).byteAt s.sp = lowByte w ∧ (s.pushed w target).byteAt (s.sp + 1) = highByte w :=
  State.byteAt_stored wf s.sp w

/-- Step 8 leaves memory (40_execute_loop.md R71). -/
@[simp] theorem byteAt_accountUnlessFaulted (c : Config) (op : Byte) (t : State) (x : Word) :
    (accountUnlessFaulted c op t).byteAt x = t.byteAt x := by
  unfold accountUnlessFaulted
  split <;> rfl

/-! ### One equation per family -/

/-- The relative jumps, each with the flag byte it is taken on; not taken, neither sets an override (R102 to R104). -/
theorem exec_relativeJumps (s : State) (e8 : Byte) : ∀ p ∈ [(Instr.jrZ e8, (0x80 : Byte)), (.jrC e8, 0x10)],
    setsNoOverride p.1.opcode false = true ∧ exec p.1 s =
      .next (if s.f = p.2 then
          (s.withPc (s.pc + BitVec.ofNat 16 e8.toNat)).withOvr (overrideAfter hardware p.1.opcode true s.ovr)
        else s.withOvr (overrideAfter hardware p.1.opcode false s.ovr)) := by
  simp only [List.forall_mem_cons]
  exact ⟨⟨rfl, exec_jrZ e8 s⟩, ⟨rfl, exec_jrC e8 s⟩, nofun⟩

/-- CALL and RST push what PC holds, the fall-through address, and go to their target (R106, R108). -/
theorem exec_callAndRestarts (s : State) (a16 : Word) : ∀ p ∈ (Instr.callA16 a16, a16) :: rstForms,
    exec p.1 s = .next ((s.pushed s.pc p.2).withOvr (overrideAfter hardware p.1.opcode false s.ovr)) := by
  simp only [rstForms, List.forall_mem_cons]
  exact ⟨exec_callA16 a16 s, exec_rst00 s, exec_rst08 s, exec_rst10 s, exec_rst18 s, exec_rst20 s, exec_rst28 s,
    exec_rst30 s, exec_rst38 s, nofun⟩

/-- PUSH pushes the pair of its two registers and leaves PC (R109). -/
theorem exec_pushForms (s : State) : ∀ p ∈ pushForms,
    ∃ q : Pair, q.first = p.2.1 ∧ q.second = p.2.2 ∧
      exec p.1 s = .next ((s.pushed (s.pair q) s.pc).withOvr (overrideAfter hardware p.1.opcode false s.ovr)) := by
  simp only [pushForms, List.forall_mem_cons]
  exact ⟨⟨.bc, rfl, rfl, exec_pushBC s⟩, ⟨.de, rfl, rfl, exec_pushDE s⟩, ⟨.hl, rfl, rfl, exec_pushHL s⟩, nofun⟩

/-! ### Overflow on any parameters -/

/-- RET and POP end where their pop raises, in its read or in its advance of PC (R98, R107, R110). -/
theorem execOn_pops_of_pop_raised (c : Config) (s : State) : ∀ i ∈ [Instr.ret, .popBC, .popDE, .popHL],
    ∀ t, pop c ⟨some i.opcode, s.pc - 1⟩ 2 s = .raised t → execOn c i s = .next t := by
  simp only [List.forall_mem_cons]
  exact ⟨fun _ raised => behave_of_raised (ret_of_raised raised),
    fun _ raised => behave_of_raised (popPair_of_raised raised),
    fun _ raised => behave_of_raised (popPair_of_raised raised),
    fun _ raised => behave_of_raised (popPair_of_raised raised), nofun⟩

/-- A relative jump that is taken raises where its target has no value: PC stays (R102). -/
theorem condRelJump_overflow {c : Config} {site : Site} {s : State} {pattern : List Flag} {e8 : Byte}
    (taken : s.f = flagByte pattern) (overflows : seq16 c s.pc e8.toNat = none) :
    condRelJump c pattern e8 site s = .raised (s.raise (site.overflow s.pc e8.toNat)) := by
  rw [condRelJump, if_pos taken, advancePc_none overflows, Res.bind_raised]

end Sys2Proof.Machine
end

section
/-! PROOF. The obligations of control transfer and the stack (43_control_stack.md): overflow under `Fault`, then the result of
each family on this hardware. -/

namespace Sys2Proof.Machine

/-! ### Overflow under `Fault` -/

/-- Settles O26: the push ends at its last act, the decrement of SP (`push_overflow`), with both bytes stored. -/
theorem pushUnderFaultWritesThenOverflows : Obligations.PushUnderFaultWritesThenOverflows := by
  intro c s a16 policy valid wf low p mem
  obtain ⟨w, value, ends⟩ := execOn_storeForms_of_raised c s a16 p mem
  obtain ⟨lowByteAt, highByteAt⟩ := State.byteAt_stored wf s.sp w
  refine ⟨_, ends _ (push_overflow policy valid low w), rfl, rfl, ?first, ?second, rfl⟩
  case first => rw [State.byteAt_raise, lowByteAt, lowByte_toNat, value]
  case second => rw [State.byteAt_raise, highByteAt, highByte_toNat, value]

/-- Settles O27: each of the four pops before it writes anything, and the pop overflows (`pop_overflow`). -/
theorem popUnderFaultOverflows : Obligations.PopUnderFaultOverflows := by
  intro c s policy valid top i mem
  exact execOn_pops_of_pop_raised c s i mem _ (pop_overflow policy valid top)

/-- Settles O28: the target is past the top, so `seq16` has no value for it under `Fault` (`condRelJump_overflow`). -/
theorem takenJumpPastTopOverflowsUnderFault : Obligations.TakenJumpPastTopOverflowsUnderFault := by
  intro c s e8 policy past
  have overflows : seq16 c s.pc e8.toNat = none := seq16_fault policy (by omega)
  simp only [List.forall_mem_cons]
  exact ⟨fun taken => behave_of_raised (i := .jrZ e8) (condRelJump_overflow (pattern := [.zero]) taken overflows),
    fun taken => behave_of_raised (i := .jrC e8) (condRelJump_overflow (pattern := [.carry]) taken overflows), nofun⟩

/-! ### Jumps -/

/-- Settles O45: the two branches of `exec_relativeJumps`; not taken, no override is set. -/
theorem relativeJumpResult : Obligations.RelativeJumpResult := by
  intro s e8 p mem
  obtain ⟨noOverride, run⟩ := exec_relativeJumps s e8 p mem
  refine ⟨_, run, fun taken => ?taken, fun notTaken => ?notTaken⟩
  case taken =>
    rw [if_pos taken]
    simp
  case notTaken =>
    rw [if_neg notTaken]
    exact ⟨rfl, overrideAfter_of_setsNoOverride noOverride s.ovr⟩

/-- Settles O46: with no override set, PC is all that changes. -/
theorem absoluteJumpResult : Obligations.AbsoluteJumpResult := by
  intro s a16
  rw [exec_jpA16, overrideAfter_of_setsNoOverride (by decide)]
  rfl

/-- Settles O49: RET jumps to the word of the two bytes at PC. -/
theorem returnResult : Obligations.ReturnResult := fun s => ⟨_, exec_ret s, word_toNat _ _, rfl⟩

/-! ### The stack -/

/-- Settles O47: the word pushed is what PC holds (`exec_callAndRestarts`). -/
theorem callAndRestartResult : Obligations.CallAndRestartResult := by
  intro s a16 wf p mem
  obtain ⟨low, high⟩ := State.byteAt_pushed wf s.pc p.2
  refine ⟨_, exec_callAndRestarts s a16 p mem, ?first, ?second, rfl, rfl⟩
  case first => rw [State.byteAt_withOvr, low, lowByte_toNat]
  case second => rw [State.byteAt_withOvr, high, highByte_toNat]

/-- Settles O48: the word pushed is the pair, whose low byte is its first-named register. -/
theorem pushPairResult : Obligations.PushPairResult := by
  intro s wf p mem
  obtain ⟨q, first, second, run⟩ := exec_pushForms s p mem
  obtain ⟨low, high⟩ := State.byteAt_pushed wf (s.pair q) s.pc
  rw [← first, ← second]
  refine ⟨_, run, ?low, ?high, rfl, rfl⟩
  case low => rw [State.byteAt_withOvr, low, State.pair, lowByte_word]
  case high => rw [State.byteAt_withOvr, high, State.pair, highByte_word]

/-- Settles O50: the word of the two bytes at PC goes into the pair, its low byte into the first-named register. -/
theorem popPairResult : Obligations.PopPairResult := by
  intro s p mem
  obtain ⟨q, first, second, run⟩ := exec_popForms s p mem
  rw [← first, ← second]
  exact ⟨_, run, by simp [q.first_ne_second], by simp, by simp, by simp⟩

/-- Settles O51: steps 1 to 6 have read the operand into the instruction and moved PC past it before the CALL pushes
(`callAndRestartResult`); step 8 leaves memory and PC. -/
theorem callStepPushesFallThrough : Obligations.CallStepPushesFallThrough := by
  intro s ok wf opcode
  have fetched : fetchDecode hardware s =
      .ok (.callA16 (word (s.byteAt (s.pc + 2)) (s.byteAt (s.pc + 1)))) ((s.withPc (s.pc + 3)).withOvr 0) := by
    rw [fetchDecode_hardware, opcode]
    rfl
  obtain ⟨t, ran, low, high, -, target⟩ :=
    callAndRestartResult ((s.withPc (s.pc + 3)).withOvr 0) _ wf _ List.mem_cons_self
  refine ⟨_, stepWith_of_next ok fetched ran, ?first, ?second, ?pc⟩
  case first =>
    rw [byteAt_accountUnlessFaulted]
    exact low
  case second =>
    rw [byteAt_accountUnlessFaulted]
    exact high
  case pc => rw [accountUnlessFaulted_pc, target, word_toNat]

end Sys2Proof.Machine
end

section
/-! PROOF. The exception obligations (60_exceptions.md): which fault a step of this hardware can raise. -/

namespace Sys2Proof.Machine

/-- A step that runs an admitted instruction raises nothing on this hardware: steps 1 to 6 and step 8 leave `FAULT`, and so
does the behaviour (`exec_admitted_keeps`; 60_exceptions.md R115, R116). -/
theorem fault_none_of_admitted_step {s t : State} {i : Instr} {rest : List Byte} (ok : s.fault = none)
    (admitted : ∀ op, i ≠ .unimplemented op)
    (decoded : decode [s.byteAt s.pc, s.byteAt (s.pc + 1), s.byteAt (s.pc + 2)] = .ok (i, rest))
    (run : step s = .next t) : t.fault = none := by
  have fetched := fetchDecode_of_decode admitted decoded
  obtain ⟨u, ran, -, kept⟩ := exec_admitted_keeps ((s.withPc (s.pc + BitVec.ofNat 16 i.length)).withOvr 0) admitted
  have stepped : step s = .next (accountUnlessFaulted hardware i.opcode u) := stepWith_of_next ok fetched ran
  obtain rfl := next_unique run stepped
  rw [accountUnlessFaulted_fault, kept]
  exact ok

/-- Settles O29: the bytes at PC decode to an admitted instruction, whose step raises nothing, or to an opcode without a
behaviour, whose step is its fault alone (`exec_unimplemented`). -/
theorem hardwareRaisesOnlyUnimplementedOpcode : Obligations.HardwareRaisesOnlyUnimplementedOpcode := by
  intro s t r ok run raised
  obtain ⟨i, rest, decoded, -⟩ := threeBytesAlwaysDecode (s.byteAt s.pc) (s.byteAt (s.pc + 1)) (s.byteAt (s.pc + 2))
  by_cases admitted : ∀ op, i ≠ .unimplemented op
  case pos =>
    have fine : t.fault = none := fault_none_of_admitted_step ok admitted decoded run
    rw [fine] at raised
    cases raised
  case neg =>
    obtain ⟨op, rfl⟩ : ∃ op, i = .unimplemented op := by simpa using admitted
    obtain ⟨-, stands⟩ := stepRunsDecodedInstruction s _ rest ok decoded
    have stepped := (stands op rfl).trans (exec_unimplemented op s)
    obtain rfl := next_unique run stepped
    cases raised
    exact ⟨rfl, rfl⟩

end Sys2Proof.Machine
end

section
/-! SUPPORT. Two runs side by side, on parameters that differ in the costs at most and from states that differ in the clock and
the override at most (70_reset_and_hazards.md R138): each operation, behaviour and step takes both alike. -/

namespace Sys2Proof.Machine

/-! ### States and results that differ in time alone -/

/-- `s` at another time: the clock and the override are replaced, and nothing else. -/
def State.retimed (s : State) (clk ovr : Word) : State := (s.withClk clk).withOvr ovr

theorem SameButTiming.retimed (s : State) (clk ovr : Word) : SameButTiming s (s.retimed clk ovr) := rfl

theorem sameButTiming_iff {s t : State} : SameButTiming s t ↔ ∃ clk ovr, t = s.retimed clk ovr := by
  constructor
  · intro same
    exact ⟨t.clk, t.ovr, same.symm⟩
  · rintro ⟨clk, ovr, rfl⟩
    exact .retimed s clk ovr

/-- Two parts of a step that end alike: with one value, or both by raising, in states that differ in time alone. -/
inductive Res.Alike {α : Type} : Res α → Res α → Prop where
  | ok (v : α) (s : State) (clk ovr : Word) : Alike (.ok v s) (.ok v (s.retimed clk ovr))
  | raised (s : State) (clk ovr : Word) : Alike (.raised s) (.raised (s.retimed clk ovr))

theorem Res.Alike.bind {α β : Type} {r r' : Res α} {k k' : α → State → Res β} (alike : r.Alike r')
    (rest : ∀ v s clk ovr, (k v s).Alike (k' v (s.retimed clk ovr))) : (r.bind k).Alike (r'.bind k') := by
  cases alike with
  | ok v s clk ovr => exact rest v s clk ovr
  | raised s clk ovr => exact .raised s clk ovr

theorem Res.Alike.plain {r r' : Res Unit} (alike : r.Alike r') : (plain r).Alike (plain r') :=
  alike.bind fun _ => .ok false

/-! ### The operations (00_scope.md R10; 20_memory.md R31; 43_control_stack.md R97 to R101) -/

section
variable {c d : Config} (costs : SameButCosts c d) {site : Site} {s : State} {clk ovr : Word}
include costs

theorem SameButCosts.overflowPolicy_eq : c.overflowPolicy = d.overflowPolicy := costs.1

theorem SameButCosts.cpUnfired_eq : c.cpUnfired = d.cpUnfired := costs.2.1

theorem SameButCosts.memValid_eq : c.memValid = d.memValid := costs.2.2

theorem SameButCosts.seq16_eq (x : Word) (k : Int) : seq16 c x k = seq16 d x k := by
  simp only [seq16, costs.overflowPolicy_eq]

theorem SameButCosts.seqStep_alike {x : Word} {k : Int} :
    (seqStep c site x k s).Alike (seqStep d site x k (s.retimed clk ovr)) := by
  unfold seqStep
  rw [← costs.seq16_eq]
  split
  · exact .ok _ s clk ovr
  · exact .raised (s.raise _) clk ovr

theorem SameButCosts.advancePc_alike {k : Int} :
    (advancePc c site k s).Alike (advancePc d site k (s.retimed clk ovr)) :=
  costs.seqStep_alike.bind fun y s => .ok () (s.withPc y)

theorem SameButCosts.readByte_alike {a : Word} :
    (readByte c site a s).Alike (readByte d site a (s.retimed clk ovr)) := by
  unfold readByte
  rw [← costs.memValid_eq]
  split
  · exact .ok (s.byteAt a) s clk ovr
  · exact .raised (s.raise _) clk ovr

theorem SameButCosts.writeByte_alike {a : Word} {v : Byte} :
    (writeByte c site a v s).Alike (writeByte d site a v (s.retimed clk ovr)) := by
  unfold writeByte
  rw [← costs.memValid_eq]
  split
  · exact .ok () (s.withByte a v) clk ovr
  · exact .raised (s.raise _) clk ovr

theorem SameButCosts.readBytesFrom_alike {a : Word} {i n : Nat} :
    (readBytesFrom c site a i n s).Alike (readBytesFrom d site a i n (s.retimed clk ovr)) := by
  induction n generalizing i s clk ovr with
  | zero => exact .ok [] s clk ovr
  | succ n ih =>
    exact costs.seqStep_alike.bind fun _ _ _ _ => costs.readByte_alike.bind fun v _ _ _ => ih.bind fun vs => .ok (v :: vs)

theorem SameButCosts.writeBytesFrom_alike {a : Word} {i : Nat} {vs : List Byte} :
    (writeBytesFrom c site a i vs s).Alike (writeBytesFrom d site a i vs (s.retimed clk ovr)) := by
  induction vs generalizing i s clk ovr with
  | nil => exact .ok () s clk ovr
  | cons v vs ih => exact costs.seqStep_alike.bind fun _ _ _ _ => costs.writeByte_alike.bind fun _ _ _ _ => ih

theorem SameButCosts.readWord_alike {a : Word} :
    (readWord c site a s).Alike (readWord d site a (s.retimed clk ovr)) :=
  costs.readBytesFrom_alike.bind fun vs => .ok (leWord vs)

theorem SameButCosts.push_alike {vs : List Byte} : (push c site vs s).Alike (push d site vs (s.retimed clk ovr)) :=
  costs.writeBytesFrom_alike.bind fun _ _ _ _ => costs.seqStep_alike.bind fun y s => .ok () (s.withSp y)

theorem SameButCosts.pop_alike {n : Nat} : (pop c site n s).Alike (pop d site n (s.retimed clk ovr)) :=
  costs.readBytesFrom_alike.bind fun vs _ _ _ => costs.advancePc_alike.bind fun _ => .ok vs

theorem SameButCosts.restart_alike {target : Word} :
    (restart c site target s).Alike (restart d site target (s.retimed clk ovr)) :=
  costs.push_alike.bind fun _ s => .ok () (s.withPc target)

theorem SameButCosts.src8_alike {src : Src8} : (src8 c site src s).Alike (src8 d site src (s.retimed clk ovr)) := by
  cases src with
  | reg r => cases r <;> exact .ok _ s clk ovr
  | atHL => exact costs.readByte_alike
  | imm d8 => exact .ok d8 s clk ovr

/-! ### The behaviours (42_alu_flags.md, 43_control_stack.md) -/

theorem SameButCosts.sbc_alike (src : Src8) (site : Site) : (sbc c src site s).Alike (sbc d src site (s.retimed clk ovr)) :=
  costs.src8_alike.bind fun x s => .ok false (s.withF (sbcFlags s.a x s.f))

theorem SameButCosts.cp_alike (src : Src8) (site : Site) : (cp c src site s).Alike (cp d src site (s.retimed clk ovr)) := by
  unfold cp
  rw [← costs.cpUnfired_eq]
  exact costs.src8_alike.bind fun x s => .ok false (s.withF (cpFlags c.cpUnfired s.a x s.f))

theorem SameButCosts.xorWith_alike (src : Src8) (site : Site) :
    (xorWith c src site s).Alike (xorWith d src site (s.retimed clk ovr)) :=
  costs.src8_alike.bind fun x s => .ok false ((s.withA (s.a ^^^ x)).withF (xorFlags (s.a ^^^ x)))

omit costs in
theorem addHL_alike (x : Addend) (site : Site) : (addHL x site s).Alike (addHL x site (s.retimed clk ovr)) := by
  rcases x with (_ | _ | _) | _ <;> exact .ok false (State.setPair (s.withF _) .hl _) clk ovr

theorem SameButCosts.condRelJump_alike (pattern : List Flag) (e8 : Byte) (site : Site) :
    (condRelJump c pattern e8 site s).Alike (condRelJump d pattern e8 site (s.retimed clk ovr)) := by
  by_cases taken : s.f = flagByte pattern
  · rw [condRelJump, condRelJump, if_pos taken, if_pos (show (s.retimed clk ovr).f = _ from taken)]
    exact costs.advancePc_alike.bind fun _ => .ok true
  · rw [condRelJump, condRelJump, if_neg taken, if_neg (show ¬(s.retimed clk ovr).f = _ from taken)]
    exact .ok false s clk ovr

theorem SameButCosts.ret_alike (site : Site) : (ret c site s).Alike (ret d site (s.retimed clk ovr)) :=
  (costs.pop_alike.bind fun vs s => .ok () (s.withPc (leWord vs))).plain

theorem SameButCosts.pushPair_alike (p : Pair) (site : Site) :
    (pushPair c p site s).Alike (pushPair d p site (s.retimed clk ovr)) := by
  cases p <;> exact costs.push_alike.plain

theorem SameButCosts.popPair_alike (p : Pair) (site : Site) :
    (popPair c p site s).Alike (popPair d p site (s.retimed clk ovr)) := by
  refine costs.pop_alike.bind fun vs s clk ovr => ?_
  cases p <;> exact .ok false (s.setPair _ (leWord vs)) clk ovr

/-! ### Instructions -/

omit costs in
/-- Behaviours that end alike leave states that differ in time alone, whatever overrides they set (40_execute_loop.md R70). -/
theorem behave_alike {i : Instr} {body body' : Site → State → Res Bool}
    (alike : ∀ site, (body site s).Alike (body' site (s.retimed clk ovr))) :
    ∃ t clk' ovr', behave c i body s = .next t ∧ behave d i body' (s.retimed clk ovr) = .next (t.retimed clk' ovr') := by
  have ends := alike ⟨some i.opcode, s.pc - BitVec.ofNat 16 i.length⟩
  generalize left : body _ s = r, right : body' _ (s.retimed clk ovr) = r' at ends
  cases ends with
  | ok taken t clk' ovr' =>
    exact ⟨_, clk', _, behave_of_ok left, behave_of_ok (s := s.retimed clk ovr) (t := t.retimed clk' ovr') right⟩
  | raised t clk' ovr' =>
    exact ⟨t, clk', ovr', behave_of_raised left, behave_of_raised (s := s.retimed clk ovr) right⟩

/-- Every instruction answers next states that differ in time alone (R138): each family by its behaviour. -/
theorem SameButCosts.execOn_alike (i : Instr) :
    ∃ t clk' ovr', execOn c i s = .next t ∧ execOn d i (s.retimed clk ovr) = .next (t.retimed clk' ovr') := by
  unfold execOn
  cases i with
  | nop => exact behave_alike fun _ => .ok false s clk ovr
  | ldAd8 d8 => exact behave_alike fun _ => .ok false (s.withA d8) clk ovr
  | jpA16 a16 => exact behave_alike fun _ => .ok false (s.withPc a16) clk ovr
  | addHLBC | addHLDE | addHLHL | addHLSP => exact behave_alike (addHL_alike _)
  | sbcAB | sbcAC | sbcAD | sbcAE | sbcAH | sbcAL | sbcAAtHL | sbcAA | sbcAd8 _ => exact behave_alike (costs.sbc_alike _)
  | xorB | xorC | xorD | xorE | xorH | xorL | xorAtHL | xorA | xord8 _ => exact behave_alike (costs.xorWith_alike _)
  | cpB | cpC | cpD | cpE | cpH | cpL | cpAtHL | cpA | cpd8 _ => exact behave_alike (costs.cp_alike _)
  | jrZ _ | jrC _ => exact behave_alike (costs.condRelJump_alike _ _)
  | callA16 _ | rst00 | rst08 | rst10 | rst18 | rst20 | rst28 | rst30 | rst38 =>
    exact behave_alike fun _ => costs.restart_alike.plain
  | ret => exact behave_alike costs.ret_alike
  | pushBC | pushDE | pushHL => exact behave_alike (costs.pushPair_alike _)
  | popBC | popDE | popHL => exact behave_alike (costs.popPair_alike _)
  | unimplemented op => exact ⟨s.raise _, clk, ovr, rfl, rfl⟩

/-! ### The step and the run (40_execute_loop.md R63, R76) -/

theorem SameButCosts.readOperand_alike (form : Form) :
    (readOperand c site form s).Alike (readOperand d site form (s.retimed clk ovr)) := by
  cases form with
  | f0 i => exact .ok i s clk ovr
  | f1 mk => exact costs.readByte_alike.bind fun v => .ok (mk v)
  | f2 mk => exact costs.readWord_alike.bind fun v => .ok (mk v)

theorem SameButCosts.prepare_alike (form : Form) :
    (prepare c site form s).Alike (prepare d site form (s.retimed clk ovr)) :=
  costs.advancePc_alike.bind fun _ _ _ _ => (costs.readOperand_alike form).bind fun i _ _ _ =>
    costs.advancePc_alike.bind fun _ s clk _ => .ok i (s.withOvr 0) clk 0

theorem SameButCosts.fetchDecode_alike : (fetchDecode c s).Alike (fetchDecode d (s.retimed clk ovr)) := by
  refine costs.readByte_alike.bind fun op s clk ovr => ?_
  cases dispatchTable op with
  | none => exact .ok (Instr.unimplemented op) s clk ovr
  | some e => exact costs.prepare_alike e.form

omit costs in
/-- Step 8 writes the clock alone, at any cost (R71). -/
theorem accountUnlessFaulted_retimed (op : Byte) (t : State) (clk ovr : Word) :
    ∃ clk', accountUnlessFaulted d op (t.retimed clk ovr) = (accountUnlessFaulted c op t).retimed clk' ovr := by
  cases fault : t.fault with
  | none =>
    rw [accountUnlessFaulted_none fault, accountUnlessFaulted_none (t := t.retimed clk ovr) fault]
    exact ⟨_, rfl⟩
  | some r =>
    rw [accountUnlessFaulted_some fault, accountUnlessFaulted_some (t := t.retimed clk ovr) fault]
    exact ⟨clk, rfl⟩

/-- Two steps side by side: neither is enabled, or both answer a next state, alike but for time (R138). -/
theorem SameButCosts.stepOn_alike (s : State) (clk ovr : Word) :
    (∃ r, stepOn c s = .fault r ∧ stepOn d (s.retimed clk ovr) = .fault r) ∨
    (∃ t clk' ovr', stepOn c s = .next t ∧ stepOn d (s.retimed clk ovr) = .next (t.retimed clk' ovr')) := by
  cases fault : s.fault with
  | some r => exact .inl ⟨_, stepWith_of_fault fault, stepWith_of_fault (s := s.retimed clk ovr) fault⟩
  | none =>
    right
    have fault' : (s.retimed clk ovr).fault = none := fault
    have ends := costs.fetchDecode_alike (s := s) (clk := clk) (ovr := ovr)
    generalize left : fetchDecode c s = r, right : fetchDecode d (s.retimed clk ovr) = r' at ends
    cases ends with
    | raised t clk' ovr' => exact ⟨t, clk', ovr', stepWith_of_raised fault left, stepWith_of_raised fault' right⟩
    | ok i u clk₁ ovr₁ =>
      obtain ⟨t, clk₂, ovr', run, run'⟩ := costs.execOn_alike (s := u) (clk := clk₁) (ovr := ovr₁) i
      obtain ⟨clk', account⟩ := accountUnlessFaulted_retimed (c := c) (d := d) i.opcode t clk₂ ovr'
      refine ⟨_, clk', ovr', stepWith_of_next fault left run, ?_⟩
      rw [← account]
      exact stepWith_of_next fault' right run'

/-- Two runs side by side, by induction over the steps (R138). -/
theorem SameButCosts.runOn_alike (n : Nat) (s : State) (clk ovr : Word) :
    OutcomesSameButTiming (runOn c n s) (runOn d n (s.retimed clk ovr)) := by
  induction n generalizing s clk ovr with
  | zero => exact .retimed s clk ovr
  | succ n ih =>
    rw [runOn_succ, runOn_succ]
    rcases costs.stepOn_alike s clk ovr with ⟨r, left, right⟩ | ⟨t, clk', ovr', left, right⟩ <;> rw [left, right]
    · exact rfl
    · exact ih t clk' ovr'

end

end Sys2Proof.Machine
end

section
/-! PROOF. The obligation of reset and hazards (70_reset_and_hazards.md): costs and time change nothing else. -/

namespace Sys2Proof.Machine

/-- Settles O12: the second state is the first at another time, and from there the runs end alike
(`SameButCosts.runOn_alike`). -/
theorem costsChangeOnlyTheClock : Obligations.CostsChangeOnlyTheClock := by
  intro c d n s t costs timing
  obtain ⟨clk, ovr, rfl⟩ := sameButTiming_iff.1 timing
  exact costs.runOn_alike n s clk ovr

end Sys2Proof.Machine
end
